-- ==== Sys2Proof/Word.lean ====
section
/-! DEFINITION. The types of the numbers the CORE handles (spec/00_scope.md section 5): a raw word has 16 bits, a
value on the data path has 15, a character is its code point. -/

namespace Sys2Proof

/-- A raw word (00_scope.md section 5): the content of a memory cell, of a stack entry or of the pc, in [0, 65535]. -/
abbrev Word := BitVec 16

/-- A value (R4, R20): what a register holds and a store writes, in [0, 32767]. -/
abbrev Value := BitVec 15

/-- A character, as its code point (R18): a non-negative integer with no upper bound in the spec. -/
abbrev Code := Nat

end Sys2Proof
end

