-- ==== Sys2Proof/Machine/Flags.lean ====
section
/-! DEFINITION. The machine has no flags and no condition codes (R23). This file holds what it has in their place: the
0 or 1 that eq and gt store (R85, R86), the conditions jt and jf test (R88, R89), and the results of the arithmetic
and logic instructions (R90 to R96), none of which leaves a trace of overflow. Each is computed exactly on integers and
narrowed at the end (R96). -/

namespace Sys2Proof.Machine

/-- `if vb = vc then 1 else 0` (R85). -/
def eqResult (vb vc : Value) : Value := if vb.toNat = vc.toNat then 1 else 0

/-- `if vb > vc then 1 else 0`, unsigned (R86). -/
def gtResult (vb vc : Value) : Value := if vc.toNat < vb.toNat then 1 else 0

/-- The condition of jt (R88): any value but 0. -/
def isNonzero (va : Value) : Bool := decide (va.toNat ≠ 0)

/-- The condition of jf (R89). -/
def isZero (va : Value) : Bool := decide (va.toNat = 0)

/-- `(vb + vc) mod 32768` (R90). -/
def addResult (vb vc : Value) : Value := BitVec.ofNat 15 ((vb.toNat + vc.toNat) % 32768)

/-- `(vb * vc) mod 32768` (R91). -/
def multResult (vb vc : Value) : Value := BitVec.ofNat 15 ((vb.toNat * vc.toNat) % 32768)

/-- `vb mod vc`, the unsigned remainder (R92); the caller has excluded `vc = 0`. -/
def modResult (vb vc : Value) : Value := BitVec.ofNat 15 (vb.toNat % vc.toNat)

/-- `vb AND vc` (R93). -/
def andResult (vb vc : Value) : Value := vb &&& vc

/-- `vb OR vc` (R94). -/
def orResult (vb vc : Value) : Value := vb ||| vc

/-- `32767 - vb`, the 15-bit complement (R95). -/
def notResult (vb : Value) : Value := BitVec.ofNat 15 (32767 - vb.toNat)

end Sys2Proof.Machine
end

