-- ==== Sys2Proof/Config.lean ====
section
/-! DEFINITION. The parameters of R4 that are fixed numbers, and the one free value of the machine: what the console
answers. STACK_CAPACITY, which R4 leaves open, is a field of State (log entry 8). -/

namespace Sys2Proof

/-- VALUE_MAX (R4): the largest value a register may hold and a store may write. -/
abbrev Config.valueMax : Nat := 32767

/-- MEM_WORDS (R4): the number of memory cells, at addresses 0 to 32767. -/
abbrev Config.memWords : Nat := 32768

/-- FREE VALUE (R73, R105, R106; log entry 5). The console's answer to the read_line() numbered `n` (counted from 0)
that no scripted answer covers: a finite line, or `none` when the console never answers. It has no body, so nothing
can be proved of it. -/
opaque Config.consoleLine : Nat → Option (List Code)

end Sys2Proof
end

