-- ==== Sys2Proof/Syntax.lean ====
section
/-! DEFINITION. The 22 instructions (R51), one constructor per row of spec/opcode_table.json. An operand is the raw
word of its cell (R46, R48); what it stands for is decided by its position's mode (R49, R50), in Machine/Operands.lean.
Operand names follow the spec: `a` is the first operand word, `b` the second, `c` the third. -/

namespace Sys2Proof

/-- The eight general registers (R11), named in a program by the raw words 32768 to 32775 (R12). -/
inductive Reg
  | r0 | r1 | r2 | r3 | r4 | r5 | r6 | r7
  deriving DecidableEq, Repr

/-- An instruction with its raw operand words (R50). -/
inductive Instr
  | halt
  | set (a b : Word)
  | push (a : Word)
  | pop (a : Word)
  | eq (a b c : Word)
  | gt (a b c : Word)
  | jmp (a : Word)
  | jt (a b : Word)
  | jf (a b : Word)
  | add (a b c : Word)
  | mult (a b c : Word)
  | mod (a b c : Word)
  | and (a b c : Word)
  | or (a b c : Word)
  | not (a b : Word)
  | rmem (a b : Word)
  | wmem (a b : Word)
  | call (a : Word)
  | ret
  | out (a : Word)
  /-- the table's `in`, which is a reserved word of Lean -/
  | inp (a : Word)
  | noop
  deriving DecidableEq, Repr

/-- The operand words in the order of their cells (R48). -/
def Instr.operands : Instr → List Word
  | .halt => []
  | .set a b => [a, b]
  | .push a => [a]
  | .pop a => [a]
  | .eq a b c => [a, b, c]
  | .gt a b c => [a, b, c]
  | .jmp a => [a]
  | .jt a b => [a, b]
  | .jf a b => [a, b]
  | .add a b c => [a, b, c]
  | .mult a b c => [a, b, c]
  | .mod a b c => [a, b, c]
  | .and a b c => [a, b, c]
  | .or a b c => [a, b, c]
  | .not a b => [a, b]
  | .rmem a b => [a, b]
  | .wmem a b => [a, b]
  | .call a => [a]
  | .ret => []
  | .out a => [a]
  | .inp a => [a]
  | .noop => []

end Sys2Proof
end

