-- ==== Sys2Proof/WellFormed.lean ====
section
/-! DEFINITION. When an instruction is well formed: every operand word is legal (R54). -/

namespace Sys2Proof

/-- R54: "Every operand word in [0, 32775] is legal in every operand position of every instruction". -/
def legalWord (w : Word) : Bool := decide (w.toNat ≤ 32775)

/-- Every operand word of the instruction is legal (R54). -/
def Instr.wellFormed (i : Instr) : Bool := i.operands.all legalWord

end Sys2Proof
end

