-- ==== Sys2Proof/Decode.lean ====
section
/-! DEFINITION. The classes of a raw word (R47), the opcode map (R50, R51), the decoder (R52 to R55, R69), the encoder,
the program image's byte order (R58), and the host's reading of a table word. The decoder takes the register file as
an input, since the opcode word may be a register reference (R52). -/

namespace Sys2Proof

/-! ## Classes of a raw word (R47) -/

/-- `isLit(w)`: a literal, 0 to 32767. -/
abbrev isLit (w : Word) : Prop := w.toNat ≤ 32767

/-- `isReg(w)`: a register reference, 32768 to 32775. -/
abbrev isReg (w : Word) : Prop := 32768 ≤ w.toNat ∧ w.toNat ≤ 32775

/-- `isBad(w)`: an illegal word, 32776 to 65535. -/
abbrev isBad (w : Word) : Prop := 32776 ≤ w.toNat

/-- `regIdx(w) = w - 32768 = w[2:0]` (R12, R47). -/
def regIdx (w : Word) : Reg :=
  match w.toNat % 8 with
  | 0 => .r0
  | 1 => .r1
  | 2 => .r2
  | 3 => .r3
  | 4 => .r4
  | 5 => .r5
  | 6 => .r6
  | _ => .r7

/-- The raw word that names a register (R12): 32768 plus its number. -/
def regWord : Reg → Word
  | .r0 => 32768
  | .r1 => 32769
  | .r2 => 32770
  | .r3 => 32771
  | .r4 => 32772
  | .r5 => 32773
  | .r6 => 32774
  | .r7 => 32775

/-- `zext_16(v)`: a value as a raw word, bit 15 = 0 (00_scope.md section 5). -/
def zext16 (v : Value) : Word := v.setWidth 16

/-! ## The opcode map -/

/-- The operand count of an opcode (R50, R55); none for a number outside the map (R53). -/
def operandCount : Nat → Option Nat
  | 0 => some 0
  | 1 => some 2
  | 2 => some 1
  | 3 => some 1
  | 4 => some 3
  | 5 => some 3
  | 6 => some 1
  | 7 => some 2
  | 8 => some 2
  | 9 => some 3
  | 10 => some 3
  | 11 => some 3
  | 12 => some 3
  | 13 => some 3
  | 14 => some 2
  | 15 => some 2
  | 16 => some 2
  | 17 => some 1
  | 18 => some 0
  | 19 => some 1
  | 20 => some 1
  | 21 => some 0
  | _ => none

/-- The instructions of format F0 (R48, R50), by opcode. -/
def assemble0 : Nat → Option Instr
  | 0 => some .halt
  | 18 => some .ret
  | 21 => some .noop
  | _ => none

/-- The instructions of format F1 (R48, R50), by opcode. -/
def assemble1 (op : Nat) (a : Word) : Option Instr :=
  match op with
  | 2 => some (.push a)
  | 3 => some (.pop a)
  | 6 => some (.jmp a)
  | 17 => some (.call a)
  | 19 => some (.out a)
  | 20 => some (.inp a)
  | _ => none

/-- The instructions of format F2 (R48, R50), by opcode. -/
def assemble2 (op : Nat) (a b : Word) : Option Instr :=
  match op with
  | 1 => some (.set a b)
  | 7 => some (.jt a b)
  | 8 => some (.jf a b)
  | 14 => some (.not a b)
  | 15 => some (.rmem a b)
  | 16 => some (.wmem a b)
  | _ => none

/-- The instructions of format F3 (R48, R50), by opcode. -/
def assemble3 (op : Nat) (a b c : Word) : Option Instr :=
  match op with
  | 4 => some (.eq a b c)
  | 5 => some (.gt a b c)
  | 9 => some (.add a b c)
  | 10 => some (.mult a b c)
  | 11 => some (.mod a b c)
  | 12 => some (.and a b c)
  | 13 => some (.or a b c)
  | _ => none

/-- The instruction of an opcode with its operand words (R50, R51). -/
def assemble (op : Nat) : List Word → Option Instr
  | [] => assemble0 op
  | [a] => assemble1 op a
  | [a, b] => assemble2 op a b
  | [a, b, c] => assemble3 op a b c
  | _ => none

/-! ## The decoder -/

/-- Why the words at the pc are no instruction. -/
inductive DecodeError
  /-- there is no cell for the opcode word (R62, R123 case a) -/
  | noOpcode
  /-- the resolved opcode is above 21 (R53, R69) -/
  | invalidOpcode (op : Word)
  /-- there is no cell for the next operand word (R62); `seen`: the operand words before it -/
  | noOperand (op : Word) (seen : List Word)
  /-- operand word `w` is illegal (R54); `seen`: the operand words before it -/
  | illegalOperand (op : Word) (seen : List Word) (w : Word)
  deriving DecidableEq, Repr

/-- R69: a register reference in the opcode position is replaced by the register's content; any other word, an illegal
one included, is the opcode itself. -/
def resolveOpcode (x : Reg → Value) (w : Word) : Word :=
  if isReg w then zext16 (x (regIdx w)) else w

/-- Take `n` operand words in ascending order, each tested as it is fetched (R63, R64, R71, R128). `seen` holds the
operand words taken so far. -/
def takeOperands (op : Word) : Nat → List Word → List Word → Except DecodeError (List Word × List Word)
  | 0, seen, ws => .ok (seen, ws)
  | _ + 1, seen, [] => .error (.noOperand op seen)
  | n + 1, seen, w :: ws =>
    if isBad w then .error (.illegalOperand op seen w) else takeOperands op n (seen ++ [w]) ws

/-- Decode the words from the pc on, with the register file `x` (R52): the instruction and the words after it, or the
first thing wrong in the order of R128. -/
def decode (x : Reg → Value) : List Word → Except DecodeError (Instr × List Word)
  | [] => .error .noOpcode
  | w :: ws =>
    match operandCount (resolveOpcode x w).toNat with
    | none => .error (.invalidOpcode (resolveOpcode x w))
    | some n =>
      match takeOperands (resolveOpcode x w) n [] ws with
      | .error e => .error e
      | .ok (ops, rest) =>
        match assemble (resolveOpcode x w).toNat ops with
        | none => .error (.invalidOpcode (resolveOpcode x w))
        | some i => .ok (i, rest)

/-! ## The encoder -/

/-- The opcode of an instruction (R51), as its direct opcode word. -/
def Instr.opcode : Instr → Word
  | .halt => 0
  | .set _ _ => 1
  | .push _ => 2
  | .pop _ => 3
  | .eq _ _ _ => 4
  | .gt _ _ _ => 5
  | .jmp _ => 6
  | .jt _ _ => 7
  | .jf _ _ => 8
  | .add _ _ _ => 9
  | .mult _ _ _ => 10
  | .mod _ _ _ => 11
  | .and _ _ _ => 12
  | .or _ _ _ => 13
  | .not _ _ => 14
  | .rmem _ _ => 15
  | .wmem _ _ => 16
  | .call _ => 17
  | .ret => 18
  | .out _ => 19
  | .inp _ => 20
  | .noop => 21

/-- The direct form of an instruction: the opcode word, then the operand words (R46, R48, R51). -/
def encode (i : Instr) : List Word := i.opcode :: i.operands

/-- The indirect form (R52): the opcode word names register `r`. -/
def encodeIndirect (r : Reg) (i : Instr) : List Word := regWord r :: i.operands

/-! ## The image and the table word -/

/-- The external loader's decoding of the image (R58): 16-bit little-endian words, an odd trailing byte ignored. -/
def imageWords : List (BitVec 8) → List Word
  | lo :: hi :: bytes => (hi ++ lo) :: imageWords bytes
  | [_] => []
  | [] => []

/-- The four words of an instruction whose bits are `w`, bit 0 the least significant bit of the first word; the bits
above `nbits` are zero. Four is the longest instruction (R46). -/
def tableWords (nbits w : Nat) : List Word :=
  let v := w % 2 ^ nbits
  [BitVec.ofNat 16 v, BitVec.ofNat 16 (v / 2 ^ 16), BitVec.ofNat 16 (v / 2 ^ 32), BitVec.ofNat 16 (v / 2 ^ 48)]

/-- What the decoder reads from a word of spec/opcode_table.json, the registers as they are after reset. -/
def decodeTableWord (nbits w : Nat) : Option Instr :=
  match decode (fun _ => 0) (tableWords nbits w) with
  | .ok (i, _) => some i
  | .error _ => none

end Sys2Proof
end

