-- ==== Sys2Proof/Machine/State.lean ====
section
/-! DEFINITION. The state of the machine as plain data: the eight components of R10, the stack capacity R4 leaves open,
and the console as the environment (R105). State.reset is R27 and R140. -/

namespace Sys2Proof.Machine

/-- The register file (R11): eight 15-bit values, all alike. -/
structure RegFile where
  x0 : Value
  x1 : Value
  x2 : Value
  x3 : Value
  x4 : Value
  x5 : Value
  x6 : Value
  x7 : Value
  deriving DecidableEq, Repr

/-- Main memory (R14) as the cells that do not hold 0: pairs of address and raw word, addresses strictly rising
(Memory.wf in Ops.lean). An address not listed holds 0, the reset value (log entry 1). -/
abbrev Memory := List (Nat × Word)

/-- The six fault causes of R120. -/
inductive FaultCause
  | invalidOpcode
  | stackUnderflow
  | outOfRangeAddress
  | divisionByZero
  | outOfRangeValue
  | stackOverflow
  deriving DecidableEq, Repr

/-- A fault record (R17): what the fault latch holds after a fault. -/
structure FaultRecord where
  cause : FaultCause
  /-- `pc0`, the address of the faulting instruction's opcode word -/
  pc : Word
  /-- the resolved opcode, `none` when the opcode word could not be fetched -/
  opcode : Option Word
  /-- the raw operand words fetched before the fault, in order, an illegal one included (R123) -/
  operands : List Word
  /-- the offending word, value or address, per cause (R120) -/
  detail : Option Nat
  deriving DecidableEq, Repr

/-- The state of the machine. -/
structure State where
  /-- x[0] to x[7] (R11) -/
  regs : RegFile
  /-- the program counter (R13); between steps the address of the next opcode word -/
  pc : Word
  /-- M[0] to M[32767] (R14) -/
  mem : Memory
  /-- S, the stack (R15), first element the top -/
  stack : List Word
  /-- the halted flag (R16) -/
  halted : Bool
  /-- the fault latch (R17) -/
  fault : Option FaultRecord
  /-- the input queue (R18), first element the front -/
  inq : List Code
  /-- the output accumulator (R19), in the order of output -/
  outacc : List Code
  /-- STACK_CAPACITY (R4, R15, R67): `none` is unbounded; no step changes it (log entry 8) -/
  stackCapacity : Option Nat
  /-- ENVIRONMENT, the model's own: the console's next answers as far as they are fixed, a line or `none` for an answer
  that never comes (R105, R106; log entry 5) -/
  consoleScript : List (Option (List Code))
  /-- ENVIRONMENT, the model's own: how many read_line() calls have been answered (log entry 5) -/
  consoleReads : Nat
  /-- ENVIRONMENT, the model's own: the lines passed to write_line, oldest first (R105, R144; log entry 7) -/
  consoleLog : List (List Code)
  deriving DecidableEq, Repr

/-- Why a step has no next state although its instruction has a meaning. The CORE's own faults (R120) are no members:
they are next states in which the latch is written (R127). -/
inductive Fault
  /-- STUCK. Raised by `in` alone, when the input queue is empty and the console never answers read_line(): the step
  never completes, "a hang and not a fault and not a halt" (R106, U7). Safe: the model stops where the machine makes no
  further progress (log entry 6). -/
  | consoleSilent
  deriving DecidableEq, Repr

/-- Why the model has no meaning for what it was asked. -/
inductive Refusal
  /-- An instruction without a meaning yet, by its mnemonic. Raised by exec's refused arms alone, of which none is left.
  Safe: the model stops. -/
  | notModelled (mnemonic : String)
  /-- `load` on a machine that is not in the reset state (R141, D14). Raised by State.load. Safe: the model refuses. -/
  | loadNotReset
  /-- `load` of more than 32768 words (R141, D14). Raised by State.load. Safe: the model refuses. -/
  | imageTooLong
  deriving DecidableEq, Repr

/-- The three outcomes of a step. -/
abbrev Result := Host.Outcome State Fault Refusal

/-- All eight registers 0 (R11, R27). -/
def RegFile.zero : RegFile :=
  { x0 := 0, x1 := 0, x2 := 0, x3 := 0, x4 := 0, x5 := 0, x6 := 0, x7 := 0 }

/-- The machine right after reset (R27, R140), before any image is loaded. The stack is unbounded, the spec's default
(R4); no console answer is fixed and nothing has been written (log entries 5, 7, 8). -/
def State.reset : State :=
  { regs := RegFile.zero
    pc := 0
    mem := []
    stack := []
    halted := false
    fault := none
    inq := []
    outacc := []
    stackCapacity := none
    consoleScript := []
    consoleReads := 0
    consoleLog := [] }

end Sys2Proof.Machine
end

