-- ==== Sys2Proof/Machine/Ops.lean ====
section
/-! DEFINITION. The named operations over the state: registers, memory, stack, console, and taking a fault. There is no
return from a fault (R129): the latch is cleared by reset alone (Machine/HostInterface.lean). -/

namespace Sys2Proof.Machine

/-! ## Registers (R11) -/

/-- `x[i]`. -/
def RegFile.get (x : RegFile) : Reg → Value
  | .r0 => x.x0
  | .r1 => x.x1
  | .r2 => x.x2
  | .r3 => x.x3
  | .r4 => x.x4
  | .r5 => x.x5
  | .r6 => x.x6
  | .r7 => x.x7

/-- `x[i] <- v`. -/
def RegFile.set (x : RegFile) (r : Reg) (v : Value) : RegFile :=
  match r with
  | .r0 => { x with x0 := v }
  | .r1 => { x with x1 := v }
  | .r2 => { x with x2 := v }
  | .r3 => { x with x3 := v }
  | .r4 => { x with x4 := v }
  | .r5 => { x with x5 := v }
  | .r6 => { x with x6 := v }
  | .r7 => { x with x7 := v }

/-- `x[i] <- v` in the state. -/
def State.setReg (s : State) (r : Reg) (v : Value) : State := { s with regs := s.regs.set r v }

/-! ## Memory (R14, R31 to R33) -/

/-- ADDR_MASK (R4, R33): the 15-bit mask, 0x7FFF. -/
def addrMask : Word := 0x7FFF

/-- What the cell at an address holds; 0 where nothing is listed (R14, R27). -/
def Memory.read : Memory → Nat → Word
  | [], _ => 0
  | (b, w) :: m, a => if a = b then w else Memory.read m a

/-- Write one cell. A cell that gets 0 is not listed, so equal memories are equal lists. -/
def Memory.write : Memory → Nat → Word → Memory
  | [], a, v => if v = 0 then [] else [(a, v)]
  | (b, w) :: m, a, v =>
    if a < b then (if v = 0 then (b, w) :: m else (a, v) :: (b, w) :: m)
    else if a = b then (if v = 0 then m else (a, v) :: m)
    else (b, w) :: Memory.write m a v

/-- The canonical form from address `lo` on: addresses strictly rising, none below `lo` or above 32767, no listed 0. -/
def Memory.wfFrom : Nat → Memory → Bool
  | _, [] => true
  | lo, (a, w) :: m =>
    decide (lo ≤ a) && decide (a < Config.memWords) && decide (w ≠ 0) && Memory.wfFrom (a + 1) m

/-- The canonical form of memory: the 32768 cells (R14) and nothing else. -/
def Memory.wf (m : Memory) : Bool := Memory.wfFrom 0 m

/-- Put `ws` into the cells from address `a` on, verbatim (R141). -/
def Memory.place (m : Memory) (a : Nat) : List Word → Memory
  | [] => m
  | w :: ws => Memory.place (m.write a w) (a + 1) ws

/-- `MemRead(addr, 1)` (R31): the cell at `addr AND 0x7FFF`. -/
def State.memRead (s : State) (addr : Word) : Word := s.mem.read (addr &&& addrMask).toNat

/-- `MemWrite(addr, 1, v)` (R32): the cell at `addr AND 0x7FFF` gets `zext_16(v)`. -/
def State.memWrite (s : State) (addr : Word) (v : Value) : State :=
  { s with mem := s.mem.write (addr &&& addrMask).toNat (zext16 v) }

/-! ## Program counter (R13) -/

/-- `pc <- t`. -/
def State.setPc (s : State) (t : Word) : State := { s with pc := t }

/-- The pc after `n` words have been fetched (R13, R62). -/
def State.advance (s : State) (n : Nat) : State := { s with pc := s.pc + BitVec.ofNat 16 n }

/-! ## Stack (R15, R67, R68) -/

/-- The stack holds STACK_CAPACITY entries (R67); never when the capacity is unbounded. -/
def State.stackFull (s : State) : Bool :=
  match s.stackCapacity with
  | none => false
  | some n => decide (n ≤ s.stack.length)

/-- The stack becomes `st`. -/
def State.setStack (s : State) (st : List Word) : State := { s with stack := st }

/-! ## Halted flag (R16, R61) -/

/-- `halted <- true`. -/
def State.setHalted (s : State) : State := { s with halted := true }

/-- R61: no step is taken while the machine is halted or faulted. -/
def State.stopped (s : State) : Bool := s.halted || s.fault.isSome

/-! ## Taking a fault (R127) -/

/-- The numeric code of a fault cause (R120). -/
def FaultCause.code : FaultCause → Nat
  | .invalidOpcode => 1
  | .stackUnderflow => 2
  | .outOfRangeAddress => 3
  | .divisionByZero => 4
  | .outOfRangeValue => 5
  | .stackOverflow => 6

/-- `raise`, R70 and R127. `s` is the state as the step found it, so every write of the step is discarded and `pc` is
`pc0`; the one change is the latch. (An `in` hands over its own `s` after the console transaction: R127 b.) -/
def State.enterFault (s : State) (cause : FaultCause) (opcode : Option Word) (operands : List Word)
    (detail : Option Nat) : State :=
  { s with fault := some { cause := cause, pc := s.pc, opcode := opcode, operands := operands, detail := detail } }

/-! ## Console (R103 to R106) -/

/-- LF (R4): the line-feed character, code point 10. PRESUMED by the spec itself (G2; log entry 9). -/
def lineFeed : Code := 10

/-- `read_line()` (R105): the next scripted answer, or the free answer where the script has none; `none` when the
console never answers (R106). Log entry 5. -/
def State.readLine (s : State) : Option (List Code × State) :=
  match s.consoleScript with
  | some line :: rest => some (line, { s with consoleScript := rest, consoleReads := s.consoleReads + 1 })
  | none :: _ => none
  | [] =>
    match Config.consoleLine s.consoleReads with
    | some line => some (line, { s with consoleReads := s.consoleReads + 1 })
    | none => none

/-- `write_line(cs)` (R105): the console receives one line. -/
def State.writeLine (s : State) (cs : List Code) : State := { s with consoleLog := s.consoleLog ++ [cs] }

/-- The output accumulator becomes `cs`. -/
def State.setOutacc (s : State) (cs : List Code) : State := { s with outacc := cs }

/-- The input queue becomes `q`. -/
def State.setInq (s : State) (q : List Code) : State := { s with inq := q }

/-- The refill of R104: an empty queue gets one line and a line-feed; `none` when the console never answers. -/
def State.refill (s : State) : Option State :=
  match s.inq with
  | _ :: _ => some s
  | [] =>
    match s.readLine with
    | none => none
    | some (line, s') => some (s'.setInq (line ++ [lineFeed]))

/-- The character `in` takes (R104): the front of the queue, or a line-feed from an empty one (a branch the spec keeps
although no refilled queue is empty: C9). -/
def State.takeChar (s : State) : Code × State :=
  match s.inq with
  | [] => (lineFeed, s)
  | ch :: rest => (ch, s.setInq rest)

end Sys2Proof.Machine
end

