-- ==== Sys2Proof/Machine/Operands.lean ====
section
/-! DEFINITION. The operand forms (R63, R64), the store contract (R65), the read of a computed address (R66) and the
push (R67). Each takes what the instruction does next as its last argument and takes the fault itself, with the record
R121 to R126 give it: `op` is the opcode, `seen` the operand words before this one, `ops` all of them. -/

namespace Sys2Proof.Machine

/-- The value of a resolve-as-value operand word (R63): a literal is itself, a register reference the register's
content, an illegal word has none. -/
def State.val (s : State) (w : Word) : Option Value :=
  if isLit w then some (w.setWidth 15)
  else if isReg w then some (s.regs.get (regIdx w))
  else none

/-- `Val()` (R63) on a fetched word: an illegal word raises OutOfRangeAddress (R123). -/
def State.onVal (s : State) (op : Word) (seen : List Word) (w : Word) (k : Value → Result) : Result :=
  match s.val w with
  | some v => k v
  | none => .next (s.enterFault .outOfRangeAddress (some op) (seen ++ [w]) (some w.toNat))

/-- `Slot()` (R64) on a fetched word: the word itself, verbatim; an illegal word raises OutOfRangeAddress (R123). -/
def State.onSlot (s : State) (op : Word) (seen : List Word) (w : Word) (k : Word → Result) : Result :=
  if isBad w then .next (s.enterFault .outOfRangeAddress (some op) (seen ++ [w]) (some w.toNat)) else k w

/-- The write of the store contract (R65) to a legal slot: a register, or the memory cell at that address. -/
def State.put (s : State) (slot : Word) (v : Value) : State :=
  if isReg slot then s.setReg (regIdx slot) v else s.memWrite slot v

/-- `Store(slot, v)` (R65), the last act of its instruction. `s0` is the state a fault leaves (R127), `s` the working
state the store writes into. -/
def State.store (s0 : State) (op : Word) (ops : List Word) (slot : Word) (v : Nat) (s : State) : Result :=
  if Config.valueMax < v then .next (s0.enterFault .outOfRangeValue (some op) ops (some v))
  else if isBad slot then .next (s0.enterFault .outOfRangeAddress (some op) ops (some slot.toNat))
  else .next (s.put slot (BitVec.ofNat 15 v))

/-- `LoadAt(addr)` (R66): the register a reference names, else the memory cell, else none (a fault). Only the middle
case is met from `rmem` (C5); the others are kept as R66 states them. -/
def State.loadAt (s : State) (addr : Word) : Option Word :=
  if isReg addr then some (zext16 (s.regs.get (regIdx addr)))
  else if isLit addr then some (s.memRead addr)
  else none

/-- `Push(v)` (R67) onto the stack of the working state `s`; a full stack raises StackOverflow (R126). -/
def State.onPush (s0 : State) (op : Word) (ops : List Word) (v : Word) (s : State) (k : State → Result) : Result :=
  if s.stackFull then .next (s0.enterFault .stackOverflow (some op) ops (some v.toNat))
  else k (s.setStack (v :: s.stack))

/-! ## Instruction shapes -/

/-- A format F3 instruction `op a b c` that stores `f b c` (R85, R86, R90, R91, R93, R94): all operands resolved in the
order a, b, c (R71), then the store; the pc ends at `pc0 + 4`. -/
def State.binary (s : State) (op : Word) (f : Value → Value → Value) (a b c : Word) : Result :=
  s.onSlot op [] a fun slot =>
    s.onVal op [a] b fun vb =>
      s.onVal op [a, b] c fun vc => s.store op [a, b, c] slot (f vb vc).toNat (s.advance 4)

/-- A format F2 instruction `op a b` that stores `f b` (R82, R95); the pc ends at `pc0 + 3`. -/
def State.unary (s : State) (op : Word) (f : Value → Value) (a b : Word) : Result :=
  s.onSlot op [] a fun slot =>
    s.onVal op [a] b fun vb => s.store op [a, b] slot (f vb).toNat (s.advance 3)

/-- A conditional jump `op a b` (R88, R89): both operands are resolved whether or not it is taken (R55). -/
def State.jumpIf (s : State) (op : Word) (cond : Value → Bool) (a b : Word) : Result :=
  s.onVal op [] a fun va =>
    s.onVal op [a] b fun vb => .next (if cond va then s.setPc (zext16 vb) else s.advance 3)

end Sys2Proof.Machine
end

