-- ==== Sys2Proof/Machine/Alu.lean ====
section
/-! DEFINITION. add, mult, mod, and, or, not (spec/45_alu.md). -/

namespace Sys2Proof.Machine

/-- add a b c (R90). -/
def execAdd (a b c : Word) (s : State) : Result := s.binary 9 addResult a b c

/-- mult a b c (R91). -/
def execMult (a b c : Word) (s : State) : Result := s.binary 10 multResult a b c

/-- mod a b c (R92): after the three operands, a zero divisor raises DivisionByZero (R124). -/
def execMod (a b c : Word) (s : State) : Result :=
  s.onSlot 11 [] a fun slot =>
    s.onVal 11 [a] b fun vb =>
      s.onVal 11 [a, b] c fun vc =>
        if vc.toNat = 0 then .next (s.enterFault .divisionByZero (some 11) [a, b, c] none)
        else s.store 11 [a, b, c] slot (modResult vb vc).toNat (s.advance 4)

/-- and a b c (R93). -/
def execAnd (a b c : Word) (s : State) : Result := s.binary 12 andResult a b c

/-- or a b c (R94). -/
def execOr (a b c : Word) (s : State) : Result := s.binary 13 orResult a b c

/-- not a b (R95). -/
def execNot (a b : Word) (s : State) : Result := s.unary 14 notResult a b

end Sys2Proof.Machine
end

