-- ==== Sys2Proof/Machine/CallRet.lean ====
section
/-! DEFINITION. call and ret (spec/47_call_ret.md). -/

namespace Sys2Proof.Machine

/-- call a (R100): push `pc0 + 2`, the address behind the operand word, and go to a; a full stack raises StackOverflow
with the word that was to be pushed (R126). -/
def execCall (a : Word) (s : State) : Result :=
  s.onVal 17 [] a fun va =>
    s.onPush 17 [a] (s.advance 2).pc s fun t => .next (t.setPc (zext16 va))

/-- ret (R101): pop the pc; an empty stack halts the machine instead, with the pc at `pc0 + 1`. -/
def execRet (s : State) : Result :=
  match s.stack with
  | [] => .next (s.setHalted.advance 1)
  | e :: rest => .next ((s.setStack rest).setPc e)

end Sys2Proof.Machine
end

