-- ==== Sys2Proof/Machine/Compare.lean ====
section
/-! DEFINITION. eq and gt (spec/43_compare.md). -/

namespace Sys2Proof.Machine

/-- eq a b c (R85): store 1 if b = c, else 0. -/
def execEq (a b c : Word) (s : State) : Result := s.binary 4 eqResult a b c

/-- gt a b c (R86): store 1 if b > c as unsigned numbers, else 0. -/
def execGt (a b c : Word) (s : State) : Result := s.binary 5 gtResult a b c

end Sys2Proof.Machine
end

