-- ==== Sys2Proof/Machine/HaltNoop.lean ====
section
/-! DEFINITION. halt and noop (spec/41_halt_noop.md). Every meaning starts from the state as the step found it, the pc
at the opcode word, and ends with the pc behind the instruction's words unless it sets it. -/

namespace Sys2Proof.Machine

/-- halt (R80): `halted <- true`; the pc ends at `pc0 + 1`; nothing else changes. -/
def execHalt (s : State) : Result := .next (s.setHalted.advance 1)

/-- noop (R81): only the pc advances. -/
def execNoop (s : State) : Result := .next (s.advance 1)

end Sys2Proof.Machine
end

