-- ==== Sys2Proof/Machine/InOut.lean ====
section
/-! DEFINITION. out and in (spec/48_io.md). -/

namespace Sys2Proof.Machine

/-- out a (R103): a line-feed hands the accumulator to the console as one line, without the line-feed (C3), and empties
it; any other character is appended to it. -/
def execOut (a : Word) (s : State) : Result :=
  s.onVal 19 [] a fun va =>
    if va.toNat = lineFeed then .next (((s.writeLine s.outacc).setOutacc []).advance 2)
    else .next ((s.setOutacc (s.outacc ++ [va.toNat])).advance 2)

/-- in a (R104): the operand word is tested before any console transaction; an empty queue asks the console for a line;
the front character's code is stored into the slot a. A code above 32767 raises OutOfRangeValue and keeps the queue's
new content (R127 b). A console that never answers leaves the step uncompleted (R106). -/
def execIn (a : Word) (s : State) : Result :=
  s.onSlot 20 [] a fun slot =>
    match s.refill with
    | none => .fault .consoleSilent
    | some s1 => s1.takeChar.2.store 20 [a] slot s1.takeChar.1 (s1.takeChar.2.advance 2)

end Sys2Proof.Machine
end

