-- ==== Sys2Proof/Machine/Jumps.lean ====
section
/-! DEFINITION. jmp, jt, jf (spec/44_jumps.md): the target is an absolute cell address, a value. -/

namespace Sys2Proof.Machine

/-- jmp a (R87). -/
def execJmp (a : Word) (s : State) : Result := s.onVal 6 [] a fun va => .next (s.setPc (zext16 va))

/-- jt a b (R88): to b if a is not 0, else on to `pc0 + 3`. -/
def execJt (a b : Word) (s : State) : Result := s.jumpIf 7 isNonzero a b

/-- jf a b (R89): to b if a is 0, else on to `pc0 + 3`. -/
def execJf (a b : Word) (s : State) : Result := s.jumpIf 8 isZero a b

end Sys2Proof.Machine
end

