-- ==== Sys2Proof/Machine/MemAccess.lean ====
section
/-! DEFINITION. rmem and wmem (spec/46_rmem_wmem.md). The operand `a` of rmem is a slot, that of wmem a value (R99). -/

namespace Sys2Proof.Machine

/-- rmem a b (R97): store what the address b holds into the slot a; a cell above 32767 raises OutOfRangeValue (R125). -/
def execRmem (a b : Word) (s : State) : Result :=
  s.onSlot 15 [] a fun slot =>
    s.onVal 15 [a] b fun vb =>
      match s.loadAt (zext16 vb) with
      | some w => s.store 15 [a, b] slot w.toNat (s.advance 3)
      | none => .next (s.enterFault .outOfRangeAddress (some 15) [a, b] (some vb.toNat))

/-- wmem a b (R98): store the value of b at the address that is the VALUE of a. -/
def execWmem (a b : Word) (s : State) : Result :=
  s.onVal 16 [] a fun va =>
    s.onVal 16 [a] b fun vb => s.store 16 [a, b] (zext16 va) vb.toNat (s.advance 3)

end Sys2Proof.Machine
end

