-- ==== Sys2Proof/Machine/MoveStack.lean ====
section
/-! DEFINITION. set, push, pop (spec/42_move_stack.md). -/

namespace Sys2Proof.Machine

/-- set a b (R82): store the value of b into the slot a. -/
def execSet (a b : Word) (s : State) : Result := s.unary 1 (fun vb => vb) a b

/-- push a (R83): push the value of a; a full stack raises StackOverflow (R126). -/
def execPush (a : Word) (s : State) : Result :=
  s.onVal 2 [] a fun va => s.onPush 2 [a] (zext16 va) (s.advance 2) fun t => .next t

/-- pop a (R84): store the top entry into the slot a. The operand word is tested first, then the empty stack raises
StackUnderflow (R122), then the entry 32768 raises OutOfRangeValue (R125). -/
def execPop (a : Word) (s : State) : Result :=
  s.onSlot 3 [] a fun slot =>
    match s.stack with
    | [] => .next (s.enterFault .stackUnderflow (some 3) [a] none)
    | e :: rest => s.store 3 [a] slot e.toNat ((s.setStack rest).advance 2)

end Sys2Proof.Machine
end

