-- ==== Sys2Proof/Machine/Fetch.lean ====
section
/-! DEFINITION. Fetching (R62) and decoding (R69) the instruction at the pc, and the faults this can raise (R121, R123,
R128). -/

namespace Sys2Proof.Machine

/-- `FetchWord()` (R62): the word at the pc and the state with the pc one on; none when the pc is above 32767. -/
def State.fetchWord (s : State) : Option (Word × State) :=
  if 32767 < s.pc.toNat then none else some (s.memRead s.pc, s.advance 1)

/-- The words of at most `n` fetches in a row, ending where a fetch has no cell. -/
def State.fetchWords : Nat → State → List Word
  | 0, _ => []
  | n + 1, s =>
    match s.fetchWord with
    | none => []
    | some (w, s') => w :: State.fetchWords n s'

/-- The fault a step raises when the words at the pc are no instruction (R121, R123). The pc of an operand fetch that
has no cell is `pc0 + 1` plus the operand words already fetched (R13). -/
def State.decodeFault (s : State) : DecodeError → State
  | .noOpcode => s.enterFault .outOfRangeAddress none [] (some s.pc.toNat)
  | .invalidOpcode op => s.enterFault .invalidOpcode (some op) [] (some op.toNat)
  | .noOperand op seen => s.enterFault .outOfRangeAddress (some op) seen (some (s.pc.toNat + 1 + seen.length))
  | .illegalOperand op seen w => s.enterFault .outOfRangeAddress (some op) (seen ++ [w]) (some w.toNat)

/-- What a step is to do. -/
inductive Fetched
  /-- R61: the machine is halted or faulted -/
  | idle
  /-- run this instruction -/
  | run (i : Instr)
  /-- the fetch or the decoding raised a fault, and this is the state it leaves -/
  | raised (t : State)
  deriving DecidableEq, Repr

/-- The front half of `Step()` (R60): nothing in a stopped machine (R61), else the instruction at the pc, four words
being the longest (R46), or the fault of R128 (1) to (3). -/
def State.fetchDecode (s : State) : Fetched :=
  if s.stopped then .idle
  else
    match decode s.regs.get (s.fetchWords 4) with
    | .ok (i, _) => .run i
    | .error e => .raised (s.decodeFault e)

/-- Put the four words of a table word where the next fetch reads them; a word beyond address 32767 has no cell. -/
def State.placeAtPc (s : State) (ws : List Word) : State :=
  { s with mem := s.mem.place s.pc.toNat (ws.take (Config.memWords - s.pc.toNat)) }

end Sys2Proof.Machine
end

