-- ==== Sys2Proof/Machine/Step.lean ====
section
/-! DEFINITION. One step (R60), and where an instruction is placed to be run next. -/

namespace Sys2Proof.Machine

/-- `Step()` (R60): nothing in a stopped machine (R61); else the instruction at the pc, or the fault its fetch raised. -/
def step (s : State) : Host.Outcome State Fault Refusal :=
  match s.fetchDecode with
  | .idle => .next s
  | .run i => exec i s
  | .raised t => .next t

/-- `s` with the instruction whose bits are `w` in the cells from the pc on (log entry 12). -/
def State.withFetchWord (s : State) (nbits w : Nat) : State := s.placeAtPc (tableWords nbits w)

end Sys2Proof.Machine
end

