-- ==== Sys2Proof/Machine/HostInterface.lean ====
section
/-! DEFINITION. What the host does between steps (R5, R28, R140 to R144, R149), beside step itself. -/

namespace Sys2Proof.Machine

/-- `reset()` (R140) on a machine that may have run: the eight components at their start values. The capacity of the
stack is the hardware's and the console is the environment's; a reset touches neither (log entry 11). -/
def State.hostReset (s : State) : State :=
  { State.reset with
    stackCapacity := s.stackCapacity
    consoleScript := s.consoleScript
    consoleReads := s.consoleReads
    consoleLog := s.consoleLog }

/-- `load(words)` (R141): on a machine in the reset state, `M[k] <- words[k]`, verbatim; refused on any other machine
and for more than 32768 words (D14). -/
def State.load (s : State) (words : List Word) : Result :=
  if s.hostReset ≠ s then .refused .loadNotReset
  else if Config.memWords < words.length then .refused .imageTooLong
  else .next { s with mem := s.mem.place 0 words }

/-- `is_halted()` (R5, R16). -/
def State.isHalted (s : State) : Bool := s.halted

/-- The end states the host tells apart (R130). -/
inductive RunStatus
  /-- `halted = true, fault = none`: a normal end -/
  | normalEnd
  /-- `fault != none`: a failed run -/
  | failed (r : FaultRecord)
  /-- `halted = false, fault = none`: the machine can still step -/
  | canStep
  deriving DecidableEq, Repr

/-- R130, R144. -/
def State.status (s : State) : RunStatus :=
  match s.fault with
  | some r => .failed r
  | none => if s.halted then .normalEnd else .canStep

end Sys2Proof.Machine
end

