-- ==== Sys2Proof/Machine/Run.lean ====
section
/-! DEFINITION. The host's run loop (R143), bounded by a number of steps so that it is total. -/

namespace Sys2Proof.Machine

/-- `n` calls of step() in a row, whatever the state (R60, R61). -/
def steps : Nat → State → Result
  | 0, s => .next s
  | n + 1, s =>
    match step s with
    | .next t => steps n t
    | .fault r => .fault r
    | .refused r => .refused r

/-- `Run()` (R143): step while the machine is neither halted nor faulted, at most `n` times. -/
def run : Nat → State → Result
  | 0, s => .next s
  | n + 1, s =>
    if s.stopped then .next s
    else
      match step s with
      | .next t => run n t
      | .fault r => .fault r
      | .refused r => .refused r

end Sys2Proof.Machine
end

