-- ==== Sys2Proof/Safety.lean ====
section
/-! DEFINITION. The terms claims are stated in: what an operand word stands for and what a slot holds, read off the
state; where an instruction stores; the invariant of R20, R21 and R130; reachable states. -/

namespace Sys2Proof.Machine

/-- What a legal operand word stands for in a value position (R49): a literal is itself, a register reference the
register's content. -/
def State.operandValue (s : State) (w : Word) : Nat :=
  if w.toNat ≤ 32767 then w.toNat else (s.regs.get (regIdx w)).toNat

/-- What the slot a legal operand word names holds (R49): a memory cell or a register. -/
def State.slotContent (s : State) (w : Word) : Nat :=
  if w.toNat ≤ 32767 then (s.memRead w).toNat else (s.regs.get (regIdx w)).toNat

/-- The machine's `k`-th operand cell (counted from 0): the cell at `pc0 + 1 + k` (R48). -/
def State.operandCell (s : State) (k : Nat) : Word := s.memRead (s.pc + BitVec.ofNat 16 (k + 1))

/-- The first `n` operand cells. -/
def State.operandCells (s : State) (n : Nat) : List Word := (List.range n).map s.operandCell

/-- The console's next answer: the next scripted one, or the free one where the script has none; `none` is an answer
that never comes (R105, R106). -/
def State.nextAnswer (s : State) : Option (List Code) :=
  match s.consoleScript with
  | answer :: _ => answer
  | [] => Config.consoleLine s.consoleReads

/-- The state without the environment: the CORE's eight components and the stack capacity (R10, R4). -/
def State.core (s : State) : State := { s with consoleScript := [], consoleReads := 0, consoleLog := [] }

/-- `t` is `s` after a store of `v` into the slot word `slot`, with the pc `n` cells on, and NOTHING ELSE changed: every
other register, every other cell and every other component is as in `s` (R65, R70). -/
structure Stores (s t : State) (slot : Word) (v n : Nat) : Prop where
  content : t.slotContent slot = v
  pc : t.pc = s.pc + BitVec.ofNat 16 n
  registers : ∀ r, regWord r ≠ slot → t.regs.get r = s.regs.get r
  cells : ∀ a : Word, isLit a → a ≠ slot → t.memRead a = s.memRead a
  rest : t = { s with regs := t.regs, mem := t.mem, pc := t.pc }

/-- The operand faults of an instruction with opcode `op` and `n` operands, in a machine that can step and whose opcode
word resolves to `op` (R63, R64, R71, R123, R128): when the first `k` operand words are legal and word `k` has no cell,
or is illegal, the step takes OutOfRangeAddress with the record of R123 and changes nothing else. -/
def OperandFetchFaults (op : Word) (n : Nat) : Prop :=
  ∀ (s : State) (k : Nat), s.stopped = false → s.pc.toNat ≤ 32767 →
    resolveOpcode s.regs.get (s.memRead s.pc) = op → k < n →
    s.pc.toNat + 1 + k ≤ 32768 → (∀ j < k, legalWord (s.operandCell j) = true) →
    (s.pc.toNat + 1 + k = 32768 →
      step s = .next { s with fault := some ⟨.outOfRangeAddress, s.pc, some op, s.operandCells k, some 32768⟩ }) ∧
    (s.pc.toNat + 1 + k < 32768 → isBad (s.operandCell k) →
      step s = .next { s with
        fault := some ⟨.outOfRangeAddress, s.pc, some op, s.operandCells (k + 1), some (s.operandCell k).toNat⟩ })

end Sys2Proof.Machine

namespace Sys2Proof

/-- The destination word of the instructions whose operand `a` is resolve-as-slot (R50, R99). -/
def Instr.slot : Instr → Option Word
  | .set a _ => some a
  | .pop a => some a
  | .eq a _ _ => some a
  | .gt a _ _ => some a
  | .add a _ _ => some a
  | .mult a _ _ => some a
  | .mod a _ _ => some a
  | .and a _ _ => some a
  | .or a _ _ => some a
  | .not a _ => some a
  | .rmem a _ => some a
  | .inp a => some a
  | .halt => none
  | .push _ => none
  | .jmp _ => none
  | .jt _ _ => none
  | .jf _ _ => none
  | .wmem _ _ => none
  | .call _ => none
  | .ret => none
  | .out _ => none
  | .noop => none

end Sys2Proof

namespace Sys2Proof.Machine

/-- The destination identifier of an instruction's store in state `s` (R99): the slot word itself, or for wmem the
address its operand `a` resolves to; none for an instruction that stores nothing. -/
def storeTarget (i : Instr) (s : State) : Option Word :=
  match i with
  | .wmem a _ => (s.val a).map zext16
  | i => i.slot

/-- The invariant: memory in canonical form (R14), the pc in [0, 32768] (R13, R21 d), every stack entry in [0, 32768]
(R20 c, R21 c), no more entries than the capacity (R67), never both halted and faulted (R130). A register holds at most
32767 by its type (R20 a). -/
structure State.Inv (s : State) : Prop where
  memory : s.mem.wf = true
  pc : s.pc.toNat ≤ 32768
  entries : ∀ e ∈ s.stack, e.toNat ≤ 32768
  capacity : ∀ n, s.stackCapacity = some n → s.stack.length ≤ n
  one_end : s.halted = true → s.fault = none

/-- The states of a run: from reset, through load and steps (R142, R143). -/
inductive Reachable : State → Prop
  | reset : Reachable State.reset
  | load {s t : State} (ws : List Word) : Reachable s → s.load ws = .next t → Reachable t
  | step {s t : State} : Reachable s → Machine.step s = .next t → Reachable t

end Sys2Proof.Machine
end

