-- ==== Sys2Proof/Certificates/Slice0/Obligations.lean ====
section
/-! DEFINITION. The statements for the provers. Each docstring names the rule of spec/ it formalises. A completing step
answers `.next`; taking a fault answers `.next` too, with the latch written (R127). -/

open Sys2Proof Sys2Proof.Machine

/-! ## Reset and load -/

/-- R140: reset puts every component at its start value, on the fresh machine and on one that has run. -/
def Obligations.ResetLeavesStartValues : Prop :=
  State.reset.hostReset = State.reset ∧
  ∀ s : State,
    (∀ r, s.hostReset.regs.get r = 0) ∧ s.hostReset.pc = 0 ∧
    (∀ a : Word, isLit a → s.hostReset.memRead a = 0) ∧ s.hostReset.stack = [] ∧
    s.hostReset.halted = false ∧ s.hostReset.fault = none ∧ s.hostReset.inq = [] ∧ s.hostReset.outacc = []

/-- R141: load on a reset machine stores the words verbatim from address 0 and changes memory only; after an empty
image the first step halts; it is refused for more than 32768 words and on a machine that is not reset (D14). -/
def Obligations.LoadPlacesImageOrIsRefused : Prop :=
  ∀ (s : State) (words : List Word),
    (s.hostReset = s → words.length ≤ 32768 →
      ∃ t, s.load words = .next t ∧
        (∀ k (h : k < words.length), t.memRead (BitVec.ofNat 16 k) = words[k]) ∧
        (∀ k, words.length ≤ k → k < 32768 → t.memRead (BitVec.ofNat 16 k) = 0) ∧
        t = { s with mem := t.mem }) ∧
    (s.hostReset = s → s.load [] = .next s ∧ step s = .next { s with halted := true, pc := 1 }) ∧
    (s.hostReset = s → 32768 < words.length → s.load words = .refused .imageTooLong) ∧
    (s.hostReset ≠ s → s.load words = .refused .loadNotReset)

/-- R58: an image of m bytes gives m / 2 words, word k being byte 2k plus 256 times byte 2k + 1. -/
def Obligations.ImageBytesGiveLittleEndianWords : Prop :=
  ∀ bytes : List (BitVec 8),
    (imageWords bytes).length = bytes.length / 2 ∧
    ∀ k (h : 2 * k + 1 < bytes.length),
      (imageWords bytes)[k]?.map BitVec.toNat = some (bytes[2 * k].toNat + 256 * bytes[2 * k + 1].toNat)

/-! ## The invariant -/

/-- R20, R21, R130: the machine after reset meets the invariant. -/
def Obligations.ResetMeetsInvariant : Prop := State.reset.Inv

/-- R20, R21, R22, R67, R130: every step from a state that meets the invariant leads to one that does. -/
def Obligations.StepKeepsInvariant : Prop :=
  ∀ s t : State, s.Inv → step s = .next t → t.Inv

/-- Every state of every run of every image meets the invariant (R142, R143). -/
def Obligations.ReachableStatesMeetInvariant : Prop :=
  ∀ s : State, Reachable s → s.Inv

/-- R20 (b): a cell a step has changed holds a value in [0, 32767]. -/
def Obligations.ChangedCellsHoldValues : Prop :=
  ∀ (s t : State) (a : Word), s.mem.wf = true → step s = .next t → t.memRead a ≠ s.memRead a →
    (t.memRead a).toNat ≤ 32767

/-! ## Words and encoding -/

/-- R47: every raw word is in exactly one of the three classes, which are the ranges and the bit forms of the table;
regIdx of a register reference is its low three bits, and 32768 + i names x[i]. -/
def Obligations.WordClassesAreRangesAndBits : Prop :=
  ∀ w : Word,
    (isLit w ↔ w.getLsbD 15 = false) ∧
    (isReg w ↔ w.extractLsb' 3 13 = 0b1000000000000) ∧
    (isBad w ↔ w.getLsbD 15 = true ∧ w.extractLsb' 3 12 ≠ 0) ∧
    (isLit w ∨ isReg w ∨ isBad w) ∧ ¬ (isLit w ∧ isReg w) ∧ ¬ (isLit w ∧ isBad w) ∧ ¬ (isReg w ∧ isBad w) ∧
    (isReg w → regWord (regIdx w) = w ∧ w.toNat = 32768 + (w.extractLsb' 0 3).toNat) ∧
    regIdx 32768 = .r0 ∧ regIdx 32769 = .r1 ∧ regIdx 32770 = .r2 ∧ regIdx 32771 = .r3 ∧
    regIdx 32772 = .r4 ∧ regIdx 32773 = .r5 ∧ regIdx 32774 = .r6 ∧ regIdx 32775 = .r7

/-- R50: one instruction of each family, its words written out from the spec's examples, decodes to it. -/
def Obligations.FamilyWordsDecode : Prop :=
  ∀ x : Reg → Value,
    decode x [0] = .ok (.halt, []) ∧
    decode x [1, 32768, 4] = .ok (.set 32768 4, []) ∧
    decode x [4, 32768, 32769, 5] = .ok (.eq 32768 32769 5, []) ∧
    decode x [7, 32768, 6] = .ok (.jt 32768 6, []) ∧
    decode x [9, 32769, 32769, 32768] = .ok (.add 32769 32769 32768, []) ∧
    decode x [16, 20, 32768] = .ok (.wmem 20 32768, []) ∧
    decode x [17, 4] = .ok (.call 4, []) ∧
    decode x [20, 32768] = .ok (.inp 32768, [])

/-- Decoding the encoding of a well-formed instruction gives it back, whatever the registers hold and whatever words
follow (R48, R50, R51, R55). -/
def Obligations.EncodedInstrDecodesBack : Prop :=
  ∀ (x : Reg → Value) (i : Instr) (rest : List Word), i.wellFormed = true →
    decode x (encode i ++ rest) = .ok (i, rest)

/-- R52: with a register reference as its opcode word, an instruction decodes by the register's content. -/
def Obligations.IndirectOpcodeDecodesByRegister : Prop :=
  ∀ (x : Reg → Value) (r : Reg) (i : Instr) (rest : List Word), i.wellFormed = true →
    (x r).toNat = i.opcode.toNat → decode x (encodeIndirect r i ++ rest) = .ok (i, rest)

/-- What decodes is well formed, and the words it was read from are its opcode word, direct or indirect, its operand
words and the rest (R46, R52, R54, R55). -/
def Obligations.DecodedInstrIsWellFormed : Prop :=
  ∀ (x : Reg → Value) (ws : List Word) (i : Instr) (rest : List Word), decode x ws = .ok (i, rest) →
    i.wellFormed = true ∧ ∃ w, ws = w :: i.operands ++ rest ∧ resolveOpcode x w = i.opcode

/-! ## The step -/

/-- R60: when the words at the pc decode to an instruction, the step is its exec. -/
def Obligations.StepRunsDecodedInstr : Prop :=
  ∀ (s : State) (i : Instr) (rest : List Word), s.stopped = false → i.wellFormed = true →
    decode s.regs.get (s.fetchWords 4) = .ok (i, rest) → step s = exec i s

/-- R60, R62, R69: when the cell at the pc holds an opcode word of a well-formed instruction, direct or indirect, and
the cells after it its operand words, the step is its exec. -/
def Obligations.StepRunsInstrInCells : Prop :=
  ∀ (s : State) (i : Instr), s.stopped = false → i.wellFormed = true →
    s.pc.toNat + 1 + i.operands.length ≤ 32768 →
    resolveOpcode s.regs.get (s.memRead s.pc) = i.opcode → s.operandCells i.operands.length = i.operands →
    step s = exec i s

/-- The model's own withFetchWord: the next step runs the instruction it places (R60; log entry 12). -/
def Obligations.PlacedTableWordRunsNext : Prop :=
  ∀ (s : State) (nbits w : Nat) (i : Instr) (rest : List Word), s.stopped = false → s.mem.wf = true →
    s.pc.toNat ≤ 32764 → decode s.regs.get (tableWords nbits w) = .ok (i, rest) →
    step (s.withFetchWord nbits w) = exec i (s.withFetchWord nbits w)

/-- R61: a step of a halted or a faulted machine changes nothing and raises nothing. -/
def Obligations.StoppedStepDoesNothing : Prop :=
  ∀ s : State, s.halted = true ∨ s.fault ≠ none → step s = .next s

/-- R143, R144: the run loop, which stops at a halted or faulted machine, ends where the same number of step() calls
ends: once a run has ended its state does not change (that such a step answers the same state: log entry 4). -/
def Obligations.RunLoopEndsWhereStepsEnd : Prop :=
  ∀ (n : Nat) (s : State), run n s = steps n s ∧
    (s.halted = true ∨ s.fault ≠ none → steps n s = .next s)

/-- R62, R123 (a): an opcode fetch with the pc above 32767 faults and does not wrap. -/
def Obligations.FetchAboveTopFaults : Prop :=
  ∀ s : State, s.stopped = false → 32767 < s.pc.toNat →
    step s = .next { s with fault := some ⟨.outOfRangeAddress, s.pc, none, [], some s.pc.toNat⟩ }

/-- R121: a resolved opcode above 21 raises InvalidOpcode, whether it is a literal word, an illegal word, or the content
of the register the word names. -/
def Obligations.InvalidOpcodeFaults : Prop :=
  ∀ s : State, s.stopped = false → s.pc.toNat ≤ 32767 →
    (∀ w : Word, s.memRead s.pc = w → ¬ isReg w → 22 ≤ w.toNat →
      step s = .next { s with fault := some ⟨.invalidOpcode, s.pc, some w, [], some w.toNat⟩ }) ∧
    (∀ r, s.memRead s.pc = regWord r → 22 ≤ (s.regs.get r).toNat →
      step s = .next { s with
        fault := some ⟨.invalidOpcode, s.pc, some (zext16 (s.regs.get r)), [], some (s.regs.get r).toNat⟩ })

/-- R54, R71, R128 (3): every instruction of the map takes the operand faults, in the order of its operand words. -/
def Obligations.OperandFaultsComeInOrder : Prop :=
  ∀ (op : Word) (n : Nat), operandCount op.toNat = some n → OperandFetchFaults op n

/-- R54, R63, R64, R71: exec of an instruction whose first illegal operand word is word k takes OutOfRangeAddress with
the words up to it, and changes nothing else. -/
def Obligations.IllFormedInstrFaultsAtFirstIllegalWord : Prop :=
  ∀ (i : Instr) (s : State) (k : Nat) (h : k < i.operands.length),
    (i.operands.take k).all legalWord = true → isBad i.operands[k] →
    exec i s = .next { s with
      fault := some ⟨.outOfRangeAddress, s.pc, some i.opcode, i.operands.take (k + 1), some i.operands[k].toNat⟩ }

/-- R70, R127: a step that raises a fault changes nothing but the latch, except that an `in` keeps what it did to the
input queue and the console (whose fields are the model's own, log entry 5); the record names the instruction's own
address. -/
def Obligations.FaultDiscardsTheStep : Prop :=
  ∀ (s t : State) (f : FaultRecord), s.fault = none → step s = .next t → t.fault = some f →
    f.pc = s.pc ∧
    t = { s with fault := some f, inq := t.inq, consoleScript := t.consoleScript, consoleReads := t.consoleReads } ∧
    (f.opcode ≠ some 20 → t = { s with fault := some f })

/-- R106, R120: the one step without a next state is an `in` with a legal operand word and an empty queue on a console
that never answers; every other instruction, in every state, has a next state, and none is refused. That the hang is
the outcome `.fault .consoleSilent` is the model's choice (log entry 6). -/
def Obligations.OnlyASilentConsoleStops : Prop :=
  ∀ (i : Instr) (s : State),
    (exec i s = .fault .consoleSilent ↔
      ∃ a, i = .inp a ∧ legalWord a = true ∧ s.inq = [] ∧ s.nextAnswer = none) ∧
    ((∃ t, exec i s = .next t) ∨ exec i s = .fault .consoleSilent)

/-- R73: a step depends on the CORE's state alone, except that an `in` with an empty queue depends on the console's next
answer (log entries 5, 7). Two machines that agree on these step to machines that agree. -/
def Obligations.StepDependsOnCoreAndAnswer : Prop :=
  ∀ s u t : State, s.core = u.core →
    (s.inq ≠ [] ∨ s.nextAnswer = u.nextAnswer ∨ ∀ a, s.fetchDecode ≠ .run (.inp a)) →
    step s = .next t → ∃ t', step u = .next t' ∧ t'.core = t.core

/-! ## Frames, over all 22 instructions -/

/-- R11, R65, R99: an instruction changes no register but the one its slot operand names. -/
def Obligations.RegistersFrame : Prop :=
  ∀ (i : Instr) (s t : State) (r : Reg), exec i s = .next t → i.slot ≠ some (regWord r) →
    t.regs.get r = s.regs.get r

/-- R14, R65, R98, R99: an instruction changes no cell but the one at its store's address, which is its slot operand or,
for wmem, the value of its operand a. -/
def Obligations.MemoryFrame : Prop :=
  ∀ (i : Instr) (s t : State) (a : Word), exec i s = .next t → isLit a → storeTarget i s ≠ some a →
    t.memRead a = s.memRead a

/-- R15: push and call add at most one entry on top, pop and ret remove at most the top one, every other instruction
leaves the stack alone, and none changes its capacity. -/
def Obligations.StackFrame : Prop :=
  ∀ (i : Instr) (s t : State), exec i s = .next t →
    t.stackCapacity = s.stackCapacity ∧
    (t.stack = s.stack ∨
      (((∃ a, i = .push a) ∨ (∃ a, i = .call a)) ∧ ∃ e, t.stack = e :: s.stack) ∨
      (((∃ a, i = .pop a) ∨ i = .ret) ∧ ∃ e, s.stack = e :: t.stack))

/-- R16: the halted flag changes only by halt and by ret on an empty stack, and then to true. -/
def Obligations.HaltedFlagFrame : Prop :=
  ∀ (i : Instr) (s t : State), exec i s = .next t →
    t.halted = s.halted ∨ (t.halted = true ∧ t.fault = s.fault ∧ (i = .halt ∨ (i = .ret ∧ s.stack = [])))

/-- R17, R127: the latch is unchanged, or it holds this instruction's record and the instruction had no other effect
(but on the input queue and the console, for `in`; the console's fields are the model's own, log entry 5). -/
def Obligations.FaultLatchFrame : Prop :=
  ∀ (i : Instr) (s t : State), exec i s = .next t →
    t.fault = s.fault ∨
      ∃ f : FaultRecord, f.pc = s.pc ∧ f.opcode = some i.opcode ∧ f.operands <+: i.operands ∧
        t = { s with
          fault := some f, inq := t.inq, consoleScript := t.consoleScript, consoleReads := t.consoleReads } ∧
        ((∀ a, i ≠ .inp a) → t = { s with fault := some f })

/-- R18, R19, R105: only `in` touches the input queue and reads the console, only out touches the accumulator and writes
to the console, and a written line stays written. The console's fields are the model's own (log entries 5, 7). -/
def Obligations.ConsoleFrame : Prop :=
  ∀ (i : Instr) (s t : State), exec i s = .next t →
    ((∀ a, i ≠ .inp a) →
      t.inq = s.inq ∧ t.consoleScript = s.consoleScript ∧ t.consoleReads = s.consoleReads) ∧
    ((∀ a, i ≠ .out a) → t.outacc = s.outacc ∧ t.consoleLog = s.consoleLog) ∧
    s.consoleLog <+: t.consoleLog

/-- R13: an instruction that completes and is no control transfer leaves the pc behind its words. -/
def Obligations.PcEndsBehindTheWords : Prop :=
  ∀ (i : Instr) (s t : State), s.fault = none → exec i s = .next t → t.fault = none →
    (∀ a, i ≠ .jmp a) → (∀ a b, i ≠ .jt a b) → (∀ a b, i ≠ .jf a b) → (∀ a, i ≠ .call a) → i ≠ .ret →
    t.pc = s.pc + BitVec.ofNat 16 (1 + i.operands.length)

/-! ## The shared operations -/

/-- R49, R63, R64: a literal resolves to itself and a register reference to the register's content, once; a slot word is
taken verbatim; an illegal word raises OutOfRangeAddress in either mode. -/
def Obligations.OperandModesResolve : Prop :=
  ∀ (s : State) (op : Word) (seen : List Word) (w : Word) (kv : Value → Result) (ks : Word → Result),
    (isLit w → s.onVal op seen w kv = kv (BitVec.ofNat 15 w.toNat)) ∧
    (∀ r, w = regWord r → s.onVal op seen w kv = kv (s.regs.get r)) ∧
    (w.toNat ≤ 32775 → s.onSlot op seen w ks = ks w) ∧
    (isBad w →
      s.onVal op seen w kv = .next { s with
        fault := some ⟨.outOfRangeAddress, s.pc, some op, seen ++ [w], some w.toNat⟩ } ∧
      s.onSlot op seen w ks = .next { s with
        fault := some ⟨.outOfRangeAddress, s.pc, some op, seen ++ [w], some w.toNat⟩ })

/-- R65: the store contract, whole: a value above 32767 faults; a register reference gets the value in that register, a
literal in that cell, and nothing else changes; an illegal slot faults. -/
def Obligations.StoreContractHolds : Prop :=
  ∀ (s0 s : State) (op : Word) (ops : List Word) (slot : Word) (v : Nat),
    (32767 < v → s0.store op ops slot v s =
      .next { s0 with fault := some ⟨.outOfRangeValue, s0.pc, some op, ops, some v⟩ }) ∧
    (v ≤ 32767 → slot.toNat ≤ 32775 → s.mem.wf = true →
      ∃ t, s0.store op ops slot v s = .next t ∧ Stores s t slot v 0) ∧
    (v ≤ 32767 → isBad slot → s0.store op ops slot v s =
      .next { s0 with fault := some ⟨.outOfRangeAddress, s0.pc, some op, ops, some slot.toNat⟩ })

/-- R31, R32, R33: reading a written cell gives the value, bit 15 clear; every other cell is as before; the address is
taken modulo 32768; the canonical form is kept. -/
def Obligations.MemoryReadsBackWrites : Prop :=
  ∀ (s : State) (a c : Word) (v : Value), s.mem.wf = true →
    (c.toNat % 32768 = a.toNat % 32768 → ((s.memWrite a v).memRead c).toNat = v.toNat) ∧
    (c.toNat % 32768 ≠ a.toNat % 32768 → (s.memWrite a v).memRead c = s.memRead c) ∧
    (s.memWrite a v).mem.wf = true

/-- Two memories in canonical form that read alike at every one of the 32768 addresses are equal data (R14). -/
def Obligations.CanonicalMemoriesAreDeterminedByReads : Prop :=
  ∀ m n : Memory, m.wf = true → n.wf = true → (∀ a, a < 32768 → m.read a = n.read a) → m = n

/-- R43, R147: the cell a wmem has written is what the next fetch of that cell reads. -/
def Obligations.StoredWordIsFetchedNext : Prop :=
  ∀ (a b : Word) (s : State), (Instr.wmem a b).wellFormed = true → s.mem.wf = true →
    ∃ t, exec (.wmem a b) s = .next t ∧
      ∀ u : State, u.mem = t.mem → u.pc.toNat = s.operandValue a →
        u.fetchWord = some (BitVec.ofNat 16 (s.operandValue b), { u with pc := u.pc + 1 })

/-- R102: after a call, ret goes to the cell behind the call's operand word and leaves the stack as before the call. -/
def Obligations.CallThenRetReturnsBehindTheCall : Prop :=
  ∀ (a : Word) (s : State), (Instr.call a).wellFormed = true →
    (∀ n, s.stackCapacity = some n → s.stack.length < n) →
    ∃ t, exec (.call a) s = .next t ∧
      ∀ u : State, u.stack = t.stack → exec .ret u = .next { u with stack := s.stack, pc := s.pc + 2 }

/-- R96: the laws of the arithmetic and logic results. -/
def Obligations.ArithmeticLaws : Prop :=
  ∀ b c : Value,
    addResult b c = addResult c b ∧ multResult b c = multResult c b ∧
    (addResult b c).toNat = (b.toNat + c.toNat) % 32768 ∧ (multResult b c).toNat = (b.toNat * c.toNat) % 32768 ∧
    (notResult b).toNat = 32767 - b.toNat ∧ notResult b = b ^^^ 0x7FFF ∧ notResult (notResult b) = b ∧
    b.toNat + (notResult b).toNat = 32767 ∧
    (andResult b c).toNat + (orResult b c).toNat = b.toNat + c.toNat ∧
    (c.toNat ≠ 0 → (modResult b c).toNat < c.toNat ∧ ∃ q, b.toNat = q * c.toNat + (modResult b c).toNat)

/-! ## The 22 instructions -/

/-- R80, R61: the flag is set and the pc passes the opcode word, nothing else changes, and no further step is taken.
That a step of the halted state answers that state is the model's reading (log entry 4, DEDUCED). -/
def Obligations.HaltSetsHalted : Prop :=
  encode .halt = [0] ∧
  ∀ s : State,
    exec .halt s = .next { s with halted := true, pc := s.pc + 1 } ∧
    step { s with halted := true, pc := s.pc + 1 } = .next { s with halted := true, pc := s.pc + 1 }

/-- R81: only the pc changes; behind a noop at address 32767 the next step faults at its fetch. -/
def Obligations.NoopAdvancesOnly : Prop :=
  encode .noop = [21] ∧
  ∀ s : State,
    exec .noop s = .next { s with pc := s.pc + 1 } ∧
    (s.stopped = false → s.pc = 32767 →
      step { s with pc := s.pc + 1 } = .next { s with
        pc := s.pc + 1, fault := some ⟨.outOfRangeAddress, 32768, none, [], some 32768⟩ })

/-- R82. -/
def Obligations.SetStoresItsValue : Prop :=
  OperandFetchFaults 1 2 ∧
  ∀ (a b : Word) (s : State), encode (.set a b) = [1, a, b] ∧
    ((Instr.set a b).wellFormed = true → s.mem.wf = true →
      ∃ t, exec (.set a b) s = .next t ∧ Stores s t a (s.operandValue b) 3)

/-- R83. -/
def Obligations.PushAddsItsValue : Prop :=
  OperandFetchFaults 2 1 ∧
  ∀ (a : Word) (s : State), encode (.push a) = [2, a] ∧
    ((Instr.push a).wellFormed = true → (∀ n, s.stackCapacity = some n → s.stack.length < n) →
      exec (.push a) s =
        .next { s with stack := BitVec.ofNat 16 (s.operandValue a) :: s.stack, pc := s.pc + 2 }) ∧
    ((Instr.push a).wellFormed = true → ∀ n, s.stackCapacity = some n → n ≤ s.stack.length →
      exec (.push a) s =
        .next { s with fault := some ⟨.stackOverflow, s.pc, some 2, [a], some (s.operandValue a)⟩ })

/-- R84. -/
def Obligations.PopStoresTheTop : Prop :=
  OperandFetchFaults 3 1 ∧
  ∀ (a : Word) (s : State), encode (.pop a) = [3, a] ∧
    ((Instr.pop a).wellFormed = true → s.mem.wf = true → ∀ e rest, s.stack = e :: rest → e.toNat ≤ 32767 →
      ∃ t, exec (.pop a) s = .next t ∧ Stores { s with stack := rest } t a e.toNat 2) ∧
    ((Instr.pop a).wellFormed = true → s.stack = [] →
      exec (.pop a) s = .next { s with fault := some ⟨.stackUnderflow, s.pc, some 3, [a], none⟩ }) ∧
    ((Instr.pop a).wellFormed = true → ∀ e rest, s.stack = e :: rest → 32767 < e.toNat →
      exec (.pop a) s = .next { s with fault := some ⟨.outOfRangeValue, s.pc, some 3, [a], some e.toNat⟩ })

/-- R85. -/
def Obligations.EqStoresEquality : Prop :=
  OperandFetchFaults 4 3 ∧
  ∀ (a b c : Word) (s : State), encode (.eq a b c) = [4, a, b, c] ∧
    ((Instr.eq a b c).wellFormed = true → s.mem.wf = true →
      ∃ t, exec (.eq a b c) s = .next t ∧
        Stores s t a (if s.operandValue b = s.operandValue c then 1 else 0) 4)

/-- R86. -/
def Obligations.GtStoresUnsignedGreater : Prop :=
  OperandFetchFaults 5 3 ∧
  ∀ (a b c : Word) (s : State), encode (.gt a b c) = [5, a, b, c] ∧
    ((Instr.gt a b c).wellFormed = true → s.mem.wf = true →
      ∃ t, exec (.gt a b c) s = .next t ∧
        Stores s t a (if s.operandValue c < s.operandValue b then 1 else 0) 4)

/-- R87. -/
def Obligations.JmpGoesToItsValue : Prop :=
  OperandFetchFaults 6 1 ∧
  ∀ (a : Word) (s : State), encode (.jmp a) = [6, a] ∧
    ((Instr.jmp a).wellFormed = true →
      exec (.jmp a) s = .next { s with pc := BitVec.ofNat 16 (s.operandValue a) })

/-- R88. -/
def Obligations.JtJumpsIfNonzero : Prop :=
  OperandFetchFaults 7 2 ∧
  ∀ (a b : Word) (s : State), encode (.jt a b) = [7, a, b] ∧
    ((Instr.jt a b).wellFormed = true →
      exec (.jt a b) s =
        .next { s with pc := if s.operandValue a ≠ 0 then BitVec.ofNat 16 (s.operandValue b) else s.pc + 3 })

/-- R89. -/
def Obligations.JfJumpsIfZero : Prop :=
  OperandFetchFaults 8 2 ∧
  ∀ (a b : Word) (s : State), encode (.jf a b) = [8, a, b] ∧
    ((Instr.jf a b).wellFormed = true →
      exec (.jf a b) s =
        .next { s with pc := if s.operandValue a = 0 then BitVec.ofNat 16 (s.operandValue b) else s.pc + 3 })

/-- R90. -/
def Obligations.AddStoresTheSum : Prop :=
  OperandFetchFaults 9 3 ∧
  ∀ (a b c : Word) (s : State), encode (.add a b c) = [9, a, b, c] ∧
    ((Instr.add a b c).wellFormed = true → s.mem.wf = true →
      ∃ t, exec (.add a b c) s = .next t ∧
        Stores s t a ((s.operandValue b + s.operandValue c) % 32768) 4)

/-- R91. -/
def Obligations.MultStoresTheProduct : Prop :=
  OperandFetchFaults 10 3 ∧
  ∀ (a b c : Word) (s : State), encode (.mult a b c) = [10, a, b, c] ∧
    ((Instr.mult a b c).wellFormed = true → s.mem.wf = true →
      ∃ t, exec (.mult a b c) s = .next t ∧
        Stores s t a ((s.operandValue b * s.operandValue c) % 32768) 4)

/-- R92. -/
def Obligations.ModStoresTheRemainder : Prop :=
  OperandFetchFaults 11 3 ∧
  ∀ (a b c : Word) (s : State), encode (.mod a b c) = [11, a, b, c] ∧
    ((Instr.mod a b c).wellFormed = true → s.mem.wf = true → s.operandValue c ≠ 0 →
      ∃ t, exec (.mod a b c) s = .next t ∧ Stores s t a (s.operandValue b % s.operandValue c) 4) ∧
    ((Instr.mod a b c).wellFormed = true → s.operandValue c = 0 →
      exec (.mod a b c) s =
        .next { s with fault := some ⟨.divisionByZero, s.pc, some 11, [a, b, c], none⟩ })

/-- R93. -/
def Obligations.AndStoresTheBitwiseAnd : Prop :=
  OperandFetchFaults 12 3 ∧
  ∀ (a b c : Word) (s : State), encode (.and a b c) = [12, a, b, c] ∧
    ((Instr.and a b c).wellFormed = true → s.mem.wf = true →
      ∃ t v, exec (.and a b c) s = .next t ∧ Stores s t a v 4 ∧ v ≤ 32767 ∧
        ∀ k < 15, v.testBit k = ((s.operandValue b).testBit k && (s.operandValue c).testBit k))

/-- R94. -/
def Obligations.OrStoresTheBitwiseOr : Prop :=
  OperandFetchFaults 13 3 ∧
  ∀ (a b c : Word) (s : State), encode (.or a b c) = [13, a, b, c] ∧
    ((Instr.or a b c).wellFormed = true → s.mem.wf = true →
      ∃ t v, exec (.or a b c) s = .next t ∧ Stores s t a v 4 ∧ v ≤ 32767 ∧
        ∀ k < 15, v.testBit k = ((s.operandValue b).testBit k || (s.operandValue c).testBit k))

/-- R95. -/
def Obligations.NotStoresTheComplement : Prop :=
  OperandFetchFaults 14 2 ∧
  ∀ (a b : Word) (s : State), encode (.not a b) = [14, a, b] ∧
    ((Instr.not a b).wellFormed = true → s.mem.wf = true →
      ∃ t, exec (.not a b) s = .next t ∧ Stores s t a (32767 - s.operandValue b) 3)

/-- R97. -/
def Obligations.RmemStoresTheCell : Prop :=
  OperandFetchFaults 15 2 ∧
  ∀ (a b : Word) (s : State) (w : Word), encode (.rmem a b) = [15, a, b] ∧
    ((Instr.rmem a b).wellFormed = true → s.mem.wf = true →
      s.memRead (BitVec.ofNat 16 (s.operandValue b)) = w → w.toNat ≤ 32767 →
      ∃ t, exec (.rmem a b) s = .next t ∧ Stores s t a w.toNat 3) ∧
    ((Instr.rmem a b).wellFormed = true →
      s.memRead (BitVec.ofNat 16 (s.operandValue b)) = w → 32767 < w.toNat →
      exec (.rmem a b) s = .next { s with fault := some ⟨.outOfRangeValue, s.pc, some 15, [a, b], some w.toNat⟩ })

/-- R98: the slot of wmem is the cell whose address is the VALUE of a. -/
def Obligations.WmemStoresAtTheValueOfA : Prop :=
  OperandFetchFaults 16 2 ∧
  ∀ (a b : Word) (s : State), encode (.wmem a b) = [16, a, b] ∧
    ((Instr.wmem a b).wellFormed = true → s.mem.wf = true →
      ∃ t, exec (.wmem a b) s = .next t ∧
        Stores s t (BitVec.ofNat 16 (s.operandValue a)) (s.operandValue b) 3 ∧ t.regs = s.regs)

/-- R100. -/
def Obligations.CallPushesAndGoes : Prop :=
  OperandFetchFaults 17 1 ∧
  ∀ (a : Word) (s : State), encode (.call a) = [17, a] ∧
    ((Instr.call a).wellFormed = true → (∀ n, s.stackCapacity = some n → s.stack.length < n) →
      exec (.call a) s =
        .next { s with stack := (s.pc + 2) :: s.stack, pc := BitVec.ofNat 16 (s.operandValue a) }) ∧
    ((Instr.call a).wellFormed = true → ∀ n, s.stackCapacity = some n → n ≤ s.stack.length →
      exec (.call a) s =
        .next { s with fault := some ⟨.stackOverflow, s.pc, some 17, [a], some (s.pc + 2).toNat⟩ })

/-- R101: an empty stack halts; else the top entry is the pc, and an entry of 32768 makes the next step fault. -/
def Obligations.RetPopsThePcOrHalts : Prop :=
  encode .ret = [18] ∧
  ∀ s : State,
    (s.stack = [] → exec .ret s = .next { s with halted := true, pc := s.pc + 1 }) ∧
    (∀ e rest, s.stack = e :: rest →
      exec .ret s = .next { s with stack := rest, pc := e } ∧
      (s.stopped = false → e = 32768 →
        step { s with stack := rest, pc := e } = .next { s with
          stack := rest, pc := e, fault := some ⟨.outOfRangeAddress, 32768, none, [], some 32768⟩ }))

/-- R103, R105. That 10 is the line-feed is log entry 9 (PRESUMED, by the spec itself: R4, D11); that a line handed to
the console is appended to `consoleLog` is the model's choice (log entry 7). -/
def Obligations.OutAppendsOrFlushes : Prop :=
  OperandFetchFaults 19 1 ∧
  ∀ (a : Word) (s : State), encode (.out a) = [19, a] ∧
    ((Instr.out a).wellFormed = true → s.operandValue a = 10 →
      exec (.out a) s =
        .next { s with consoleLog := s.consoleLog ++ [s.outacc], outacc := [], pc := s.pc + 2 }) ∧
    ((Instr.out a).wellFormed = true → s.operandValue a ≠ 10 →
      exec (.out a) s = .next { s with outacc := s.outacc ++ [s.operandValue a], pc := s.pc + 2 })

/-- R104, R105: `in` with a filled queue, and with an empty one and a console that answers; each for a code that fits and
for one that does not. `consoleScript` and `consoleReads` are the model's own, and it holds for every value of the free
answer (log entry 5, DESIGN CHOICE); that the line-feed is 10 is log entry 9 (PRESUMED, by the spec itself: R4, D11). -/
def Obligations.InStoresTheNextCharacter : Prop :=
  OperandFetchFaults 20 1 ∧
  ∀ (a : Word) (s : State), encode (.inp a) = [20, a] ∧
    ((Instr.inp a).wellFormed = true → ∀ ch rest, s.inq = ch :: rest →
      (ch ≤ 32767 → s.mem.wf = true →
        ∃ t, exec (.inp a) s = .next t ∧ Stores { s with inq := rest } t a ch 2) ∧
      (32767 < ch → exec (.inp a) s = .next { s with
        inq := rest, fault := some ⟨.outOfRangeValue, s.pc, some 20, [a], some ch⟩ })) ∧
    ((Instr.inp a).wellFormed = true → s.inq = [] →
      ∀ line ch rest, s.nextAnswer = some line → line ++ [10] = ch :: rest →
      (ch ≤ 32767 → s.mem.wf = true →
        ∃ t, exec (.inp a) s = .next t ∧
          Stores { s with
            inq := rest, consoleScript := s.consoleScript.tail, consoleReads := s.consoleReads + 1 } t a ch 2) ∧
      (32767 < ch → exec (.inp a) s = .next { s with
        inq := rest, consoleScript := s.consoleScript.tail, consoleReads := s.consoleReads + 1,
        fault := some ⟨.outOfRangeValue, s.pc, some 20, [a], some ch⟩ }))
end

