-- ==== Sys2Proof/Laws/State.lean ====
section
/-! SUPPORT. What each update of the state does to each field: one lemma per field per update, true by definition. -/

namespace Sys2Proof.Machine

/-! ## Writing a register (R11) -/

@[simp] theorem State.setReg_regs (s : State) (r : Reg) (v : Value) :
    (s.setReg r v).regs = s.regs.set r v := rfl
@[simp] theorem State.setReg_pc (s : State) (r : Reg) (v : Value) :
    (s.setReg r v).pc = s.pc := rfl
@[simp] theorem State.setReg_mem (s : State) (r : Reg) (v : Value) :
    (s.setReg r v).mem = s.mem := rfl
@[simp] theorem State.setReg_stack (s : State) (r : Reg) (v : Value) :
    (s.setReg r v).stack = s.stack := rfl
@[simp] theorem State.setReg_halted (s : State) (r : Reg) (v : Value) :
    (s.setReg r v).halted = s.halted := rfl
@[simp] theorem State.setReg_fault (s : State) (r : Reg) (v : Value) :
    (s.setReg r v).fault = s.fault := rfl
@[simp] theorem State.setReg_inq (s : State) (r : Reg) (v : Value) :
    (s.setReg r v).inq = s.inq := rfl
@[simp] theorem State.setReg_outacc (s : State) (r : Reg) (v : Value) :
    (s.setReg r v).outacc = s.outacc := rfl
@[simp] theorem State.setReg_stackCapacity (s : State) (r : Reg) (v : Value) :
    (s.setReg r v).stackCapacity = s.stackCapacity := rfl
@[simp] theorem State.setReg_consoleScript (s : State) (r : Reg) (v : Value) :
    (s.setReg r v).consoleScript = s.consoleScript := rfl
@[simp] theorem State.setReg_consoleReads (s : State) (r : Reg) (v : Value) :
    (s.setReg r v).consoleReads = s.consoleReads := rfl
@[simp] theorem State.setReg_consoleLog (s : State) (r : Reg) (v : Value) :
    (s.setReg r v).consoleLog = s.consoleLog := rfl

/-! ## Writing a memory cell (R32) -/

@[simp] theorem State.memWrite_regs (s : State) (a : Word) (v : Value) :
    (s.memWrite a v).regs = s.regs := rfl
@[simp] theorem State.memWrite_pc (s : State) (a : Word) (v : Value) :
    (s.memWrite a v).pc = s.pc := rfl
@[simp] theorem State.memWrite_mem (s : State) (a : Word) (v : Value) :
    (s.memWrite a v).mem = s.mem.write (a &&& addrMask).toNat (zext16 v) := rfl
@[simp] theorem State.memWrite_stack (s : State) (a : Word) (v : Value) :
    (s.memWrite a v).stack = s.stack := rfl
@[simp] theorem State.memWrite_halted (s : State) (a : Word) (v : Value) :
    (s.memWrite a v).halted = s.halted := rfl
@[simp] theorem State.memWrite_fault (s : State) (a : Word) (v : Value) :
    (s.memWrite a v).fault = s.fault := rfl
@[simp] theorem State.memWrite_inq (s : State) (a : Word) (v : Value) :
    (s.memWrite a v).inq = s.inq := rfl
@[simp] theorem State.memWrite_outacc (s : State) (a : Word) (v : Value) :
    (s.memWrite a v).outacc = s.outacc := rfl
@[simp] theorem State.memWrite_stackCapacity (s : State) (a : Word) (v : Value) :
    (s.memWrite a v).stackCapacity = s.stackCapacity := rfl
@[simp] theorem State.memWrite_consoleScript (s : State) (a : Word) (v : Value) :
    (s.memWrite a v).consoleScript = s.consoleScript := rfl
@[simp] theorem State.memWrite_consoleReads (s : State) (a : Word) (v : Value) :
    (s.memWrite a v).consoleReads = s.consoleReads := rfl
@[simp] theorem State.memWrite_consoleLog (s : State) (a : Word) (v : Value) :
    (s.memWrite a v).consoleLog = s.consoleLog := rfl

/-! ## Setting the pc (R13) -/

@[simp] theorem State.setPc_regs (s : State) (t : Word) :
    (s.setPc t).regs = s.regs := rfl
@[simp] theorem State.setPc_pc (s : State) (t : Word) :
    (s.setPc t).pc = t := rfl
@[simp] theorem State.setPc_mem (s : State) (t : Word) :
    (s.setPc t).mem = s.mem := rfl
@[simp] theorem State.setPc_stack (s : State) (t : Word) :
    (s.setPc t).stack = s.stack := rfl
@[simp] theorem State.setPc_halted (s : State) (t : Word) :
    (s.setPc t).halted = s.halted := rfl
@[simp] theorem State.setPc_fault (s : State) (t : Word) :
    (s.setPc t).fault = s.fault := rfl
@[simp] theorem State.setPc_inq (s : State) (t : Word) :
    (s.setPc t).inq = s.inq := rfl
@[simp] theorem State.setPc_outacc (s : State) (t : Word) :
    (s.setPc t).outacc = s.outacc := rfl
@[simp] theorem State.setPc_stackCapacity (s : State) (t : Word) :
    (s.setPc t).stackCapacity = s.stackCapacity := rfl
@[simp] theorem State.setPc_consoleScript (s : State) (t : Word) :
    (s.setPc t).consoleScript = s.consoleScript := rfl
@[simp] theorem State.setPc_consoleReads (s : State) (t : Word) :
    (s.setPc t).consoleReads = s.consoleReads := rfl
@[simp] theorem State.setPc_consoleLog (s : State) (t : Word) :
    (s.setPc t).consoleLog = s.consoleLog := rfl

/-! ## Advancing the pc (R62) -/

@[simp] theorem State.advance_regs (s : State) (n : Nat) :
    (s.advance n).regs = s.regs := rfl
@[simp] theorem State.advance_pc (s : State) (n : Nat) :
    (s.advance n).pc = s.pc + BitVec.ofNat 16 n := rfl
@[simp] theorem State.advance_mem (s : State) (n : Nat) :
    (s.advance n).mem = s.mem := rfl
@[simp] theorem State.advance_stack (s : State) (n : Nat) :
    (s.advance n).stack = s.stack := rfl
@[simp] theorem State.advance_halted (s : State) (n : Nat) :
    (s.advance n).halted = s.halted := rfl
@[simp] theorem State.advance_fault (s : State) (n : Nat) :
    (s.advance n).fault = s.fault := rfl
@[simp] theorem State.advance_inq (s : State) (n : Nat) :
    (s.advance n).inq = s.inq := rfl
@[simp] theorem State.advance_outacc (s : State) (n : Nat) :
    (s.advance n).outacc = s.outacc := rfl
@[simp] theorem State.advance_stackCapacity (s : State) (n : Nat) :
    (s.advance n).stackCapacity = s.stackCapacity := rfl
@[simp] theorem State.advance_consoleScript (s : State) (n : Nat) :
    (s.advance n).consoleScript = s.consoleScript := rfl
@[simp] theorem State.advance_consoleReads (s : State) (n : Nat) :
    (s.advance n).consoleReads = s.consoleReads := rfl
@[simp] theorem State.advance_consoleLog (s : State) (n : Nat) :
    (s.advance n).consoleLog = s.consoleLog := rfl

/-! ## Replacing the stack (R67, R68) -/

@[simp] theorem State.setStack_regs (s : State) (st : List Word) :
    (s.setStack st).regs = s.regs := rfl
@[simp] theorem State.setStack_pc (s : State) (st : List Word) :
    (s.setStack st).pc = s.pc := rfl
@[simp] theorem State.setStack_mem (s : State) (st : List Word) :
    (s.setStack st).mem = s.mem := rfl
@[simp] theorem State.setStack_stack (s : State) (st : List Word) :
    (s.setStack st).stack = st := rfl
@[simp] theorem State.setStack_halted (s : State) (st : List Word) :
    (s.setStack st).halted = s.halted := rfl
@[simp] theorem State.setStack_fault (s : State) (st : List Word) :
    (s.setStack st).fault = s.fault := rfl
@[simp] theorem State.setStack_inq (s : State) (st : List Word) :
    (s.setStack st).inq = s.inq := rfl
@[simp] theorem State.setStack_outacc (s : State) (st : List Word) :
    (s.setStack st).outacc = s.outacc := rfl
@[simp] theorem State.setStack_stackCapacity (s : State) (st : List Word) :
    (s.setStack st).stackCapacity = s.stackCapacity := rfl
@[simp] theorem State.setStack_consoleScript (s : State) (st : List Word) :
    (s.setStack st).consoleScript = s.consoleScript := rfl
@[simp] theorem State.setStack_consoleReads (s : State) (st : List Word) :
    (s.setStack st).consoleReads = s.consoleReads := rfl
@[simp] theorem State.setStack_consoleLog (s : State) (st : List Word) :
    (s.setStack st).consoleLog = s.consoleLog := rfl

/-! ## Halting (R16) -/

@[simp] theorem State.setHalted_regs (s : State) :
    (s.setHalted).regs = s.regs := rfl
@[simp] theorem State.setHalted_pc (s : State) :
    (s.setHalted).pc = s.pc := rfl
@[simp] theorem State.setHalted_mem (s : State) :
    (s.setHalted).mem = s.mem := rfl
@[simp] theorem State.setHalted_stack (s : State) :
    (s.setHalted).stack = s.stack := rfl
@[simp] theorem State.setHalted_halted (s : State) :
    (s.setHalted).halted = true := rfl
@[simp] theorem State.setHalted_fault (s : State) :
    (s.setHalted).fault = s.fault := rfl
@[simp] theorem State.setHalted_inq (s : State) :
    (s.setHalted).inq = s.inq := rfl
@[simp] theorem State.setHalted_outacc (s : State) :
    (s.setHalted).outacc = s.outacc := rfl
@[simp] theorem State.setHalted_stackCapacity (s : State) :
    (s.setHalted).stackCapacity = s.stackCapacity := rfl
@[simp] theorem State.setHalted_consoleScript (s : State) :
    (s.setHalted).consoleScript = s.consoleScript := rfl
@[simp] theorem State.setHalted_consoleReads (s : State) :
    (s.setHalted).consoleReads = s.consoleReads := rfl
@[simp] theorem State.setHalted_consoleLog (s : State) :
    (s.setHalted).consoleLog = s.consoleLog := rfl

/-! ## Taking a fault (R127) -/

@[simp] theorem State.enterFault_regs (s : State) (c : FaultCause) (o : Option Word) (ws : List Word) (d : Option Nat) :
    (s.enterFault c o ws d).regs = s.regs := rfl
@[simp] theorem State.enterFault_pc (s : State) (c : FaultCause) (o : Option Word) (ws : List Word) (d : Option Nat) :
    (s.enterFault c o ws d).pc = s.pc := rfl
@[simp] theorem State.enterFault_mem (s : State) (c : FaultCause) (o : Option Word) (ws : List Word) (d : Option Nat) :
    (s.enterFault c o ws d).mem = s.mem := rfl
@[simp] theorem State.enterFault_stack (s : State) (c : FaultCause) (o : Option Word) (ws : List Word) (d : Option Nat) :
    (s.enterFault c o ws d).stack = s.stack := rfl
@[simp] theorem State.enterFault_halted (s : State) (c : FaultCause) (o : Option Word) (ws : List Word) (d : Option Nat) :
    (s.enterFault c o ws d).halted = s.halted := rfl
@[simp] theorem State.enterFault_fault (s : State) (c : FaultCause) (o : Option Word) (ws : List Word) (d : Option Nat) :
    (s.enterFault c o ws d).fault = some ⟨c, s.pc, o, ws, d⟩ := rfl
@[simp] theorem State.enterFault_inq (s : State) (c : FaultCause) (o : Option Word) (ws : List Word) (d : Option Nat) :
    (s.enterFault c o ws d).inq = s.inq := rfl
@[simp] theorem State.enterFault_outacc (s : State) (c : FaultCause) (o : Option Word) (ws : List Word) (d : Option Nat) :
    (s.enterFault c o ws d).outacc = s.outacc := rfl
@[simp] theorem State.enterFault_stackCapacity (s : State) (c : FaultCause) (o : Option Word) (ws : List Word) (d : Option Nat) :
    (s.enterFault c o ws d).stackCapacity = s.stackCapacity := rfl
@[simp] theorem State.enterFault_consoleScript (s : State) (c : FaultCause) (o : Option Word) (ws : List Word) (d : Option Nat) :
    (s.enterFault c o ws d).consoleScript = s.consoleScript := rfl
@[simp] theorem State.enterFault_consoleReads (s : State) (c : FaultCause) (o : Option Word) (ws : List Word) (d : Option Nat) :
    (s.enterFault c o ws d).consoleReads = s.consoleReads := rfl
@[simp] theorem State.enterFault_consoleLog (s : State) (c : FaultCause) (o : Option Word) (ws : List Word) (d : Option Nat) :
    (s.enterFault c o ws d).consoleLog = s.consoleLog := rfl

/-! ## Writing a line to the console (R105) -/

@[simp] theorem State.writeLine_regs (s : State) (cs : List Code) :
    (s.writeLine cs).regs = s.regs := rfl
@[simp] theorem State.writeLine_pc (s : State) (cs : List Code) :
    (s.writeLine cs).pc = s.pc := rfl
@[simp] theorem State.writeLine_mem (s : State) (cs : List Code) :
    (s.writeLine cs).mem = s.mem := rfl
@[simp] theorem State.writeLine_stack (s : State) (cs : List Code) :
    (s.writeLine cs).stack = s.stack := rfl
@[simp] theorem State.writeLine_halted (s : State) (cs : List Code) :
    (s.writeLine cs).halted = s.halted := rfl
@[simp] theorem State.writeLine_fault (s : State) (cs : List Code) :
    (s.writeLine cs).fault = s.fault := rfl
@[simp] theorem State.writeLine_inq (s : State) (cs : List Code) :
    (s.writeLine cs).inq = s.inq := rfl
@[simp] theorem State.writeLine_outacc (s : State) (cs : List Code) :
    (s.writeLine cs).outacc = s.outacc := rfl
@[simp] theorem State.writeLine_stackCapacity (s : State) (cs : List Code) :
    (s.writeLine cs).stackCapacity = s.stackCapacity := rfl
@[simp] theorem State.writeLine_consoleScript (s : State) (cs : List Code) :
    (s.writeLine cs).consoleScript = s.consoleScript := rfl
@[simp] theorem State.writeLine_consoleReads (s : State) (cs : List Code) :
    (s.writeLine cs).consoleReads = s.consoleReads := rfl
@[simp] theorem State.writeLine_consoleLog (s : State) (cs : List Code) :
    (s.writeLine cs).consoleLog = s.consoleLog ++ [cs] := rfl

/-! ## Replacing the output accumulator (R103) -/

@[simp] theorem State.setOutacc_regs (s : State) (cs : List Code) :
    (s.setOutacc cs).regs = s.regs := rfl
@[simp] theorem State.setOutacc_pc (s : State) (cs : List Code) :
    (s.setOutacc cs).pc = s.pc := rfl
@[simp] theorem State.setOutacc_mem (s : State) (cs : List Code) :
    (s.setOutacc cs).mem = s.mem := rfl
@[simp] theorem State.setOutacc_stack (s : State) (cs : List Code) :
    (s.setOutacc cs).stack = s.stack := rfl
@[simp] theorem State.setOutacc_halted (s : State) (cs : List Code) :
    (s.setOutacc cs).halted = s.halted := rfl
@[simp] theorem State.setOutacc_fault (s : State) (cs : List Code) :
    (s.setOutacc cs).fault = s.fault := rfl
@[simp] theorem State.setOutacc_inq (s : State) (cs : List Code) :
    (s.setOutacc cs).inq = s.inq := rfl
@[simp] theorem State.setOutacc_outacc (s : State) (cs : List Code) :
    (s.setOutacc cs).outacc = cs := rfl
@[simp] theorem State.setOutacc_stackCapacity (s : State) (cs : List Code) :
    (s.setOutacc cs).stackCapacity = s.stackCapacity := rfl
@[simp] theorem State.setOutacc_consoleScript (s : State) (cs : List Code) :
    (s.setOutacc cs).consoleScript = s.consoleScript := rfl
@[simp] theorem State.setOutacc_consoleReads (s : State) (cs : List Code) :
    (s.setOutacc cs).consoleReads = s.consoleReads := rfl
@[simp] theorem State.setOutacc_consoleLog (s : State) (cs : List Code) :
    (s.setOutacc cs).consoleLog = s.consoleLog := rfl

/-! ## Replacing the input queue (R104) -/

@[simp] theorem State.setInq_regs (s : State) (q : List Code) :
    (s.setInq q).regs = s.regs := rfl
@[simp] theorem State.setInq_pc (s : State) (q : List Code) :
    (s.setInq q).pc = s.pc := rfl
@[simp] theorem State.setInq_mem (s : State) (q : List Code) :
    (s.setInq q).mem = s.mem := rfl
@[simp] theorem State.setInq_stack (s : State) (q : List Code) :
    (s.setInq q).stack = s.stack := rfl
@[simp] theorem State.setInq_halted (s : State) (q : List Code) :
    (s.setInq q).halted = s.halted := rfl
@[simp] theorem State.setInq_fault (s : State) (q : List Code) :
    (s.setInq q).fault = s.fault := rfl
@[simp] theorem State.setInq_inq (s : State) (q : List Code) :
    (s.setInq q).inq = q := rfl
@[simp] theorem State.setInq_outacc (s : State) (q : List Code) :
    (s.setInq q).outacc = s.outacc := rfl
@[simp] theorem State.setInq_stackCapacity (s : State) (q : List Code) :
    (s.setInq q).stackCapacity = s.stackCapacity := rfl
@[simp] theorem State.setInq_consoleScript (s : State) (q : List Code) :
    (s.setInq q).consoleScript = s.consoleScript := rfl
@[simp] theorem State.setInq_consoleReads (s : State) (q : List Code) :
    (s.setInq q).consoleReads = s.consoleReads := rfl
@[simp] theorem State.setInq_consoleLog (s : State) (q : List Code) :
    (s.setInq q).consoleLog = s.consoleLog := rfl

end Sys2Proof.Machine
end

