-- ==== Sys2Proof/Laws/Words.lean ====
section
/-! SUPPORT. The classes of a raw word (R47) and the register numbers (R12), as facts about numbers. -/

namespace Sys2Proof

theorem legalWord_iff (w : Word) : legalWord w = true ↔ ¬ isBad w := by
  simp only [legalWord, decide_eq_true_eq]; omega

theorem isLit_or_isReg_of_legal {w : Word} (h : legalWord w = true) : isLit w ∨ isReg w := by
  simp only [legalWord, decide_eq_true_eq] at h; omega

theorem not_isReg_of_isLit {w : Word} (h : isLit w) : ¬ isReg w := by omega

@[simp] theorem zext16_toNat (v : Value) : (zext16 v).toNat = v.toNat := by
  rw [zext16, BitVec.toNat_setWidth]; omega

theorem zext16_isLit (v : Value) : isLit (zext16 v) := by
  have := v.isLt; have := zext16_toNat v; omega

/-- Two values with the same raw word are equal. -/
theorem zext16_inj {v w : Value} (h : zext16 v = zext16 w) : v = w := by
  apply BitVec.eq_of_toNat_eq; rw [← zext16_toNat v, ← zext16_toNat w, h]

@[simp] theorem isReg_regWord (r : Reg) : isReg (regWord r) := by cases r <;> decide

@[simp] theorem regIdx_regWord (r : Reg) : regIdx (regWord r) = r := by cases r <;> rfl

/-- A register reference is the word of the register it names (R12). -/
theorem regWord_regIdx {w : Word} (h : isReg w) : regWord (regIdx w) = w := by
  obtain ⟨lo, hi⟩ := h
  have hw : w = BitVec.ofNat 16 w.toNat := by simp
  generalize w.toNat = n at lo hi hw
  subst hw
  interval_cases n <;> rfl

theorem regWord_inj {r q : Reg} (h : regWord r = regWord q) : r = q := by
  rw [← regIdx_regWord r, h, regIdx_regWord]

theorem regWord_ne_of_isLit {w : Word} (h : isLit w) (r : Reg) : regWord r ≠ w := by
  rintro rfl; exact not_isReg_of_isLit h (isReg_regWord r)

end Sys2Proof

namespace Sys2Proof.Machine

theorem RegFile.get_set_same (x : RegFile) (r : Reg) (v : Value) : (x.set r v).get r = v := by cases r <;> rfl

theorem RegFile.get_set_ne (x : RegFile) {r q : Reg} (h : q ≠ r) (v : Value) : (x.set r v).get q = x.get q := by
  cases r <;> cases q <;> first | rfl | exact absurd rfl h

/-- The address mask changes no address of the memory (R33). -/
theorem and_addrMask_of_isLit {a : Word} (h : isLit a) : (a &&& addrMask).toNat = a.toNat := by
  have : addrMask.toNat = 2 ^ 15 - 1 := rfl
  rw [BitVec.toNat_and, this, Nat.and_two_pow_sub_one_eq_mod]; omega

theorem and_addrMask_lt (a : Word) : (a &&& addrMask).toNat < Config.memWords := by
  have : addrMask.toNat = 2 ^ 15 - 1 := rfl
  show _ < 32768
  rw [BitVec.toNat_and, this, Nat.and_two_pow_sub_one_eq_mod]; omega

end Sys2Proof.Machine
end

