-- ==== Sys2Proof/Laws/Memory.lean ====
section
/-! SUPPORT. Memory: what a write does to a later read, and that every operation keeps the canonical form. -/

namespace Sys2Proof.Machine

theorem Memory.wfFrom_mono {lo lo' : Nat} {m : Memory} (hle : lo' ≤ lo) (h : Memory.wfFrom lo m = true) :
    Memory.wfFrom lo' m = true := by
  cases m with
  | nil => rfl
  | cons p m =>
    simp only [Memory.wfFrom, Bool.and_eq_true, decide_eq_true_eq] at h ⊢
    exact ⟨⟨⟨by omega, h.1.1.2⟩, h.1.2⟩, h.2⟩

/-- Nothing is listed below where the canonical form begins. -/
theorem Memory.read_below {lo : Nat} {m : Memory} (h : Memory.wfFrom lo m = true) {a : Nat} (ha : a < lo) :
    Memory.read m a = 0 := by
  induction m generalizing lo with
  | nil => rfl
  | cons p m ih =>
    simp only [Memory.wfFrom, Bool.and_eq_true, decide_eq_true_eq] at h
    rw [Memory.read, if_neg (by omega)]
    exact ih h.2 (by omega)

theorem Memory.read_write_ne (m : Memory) {a c : Nat} (h : c ≠ a) (v : Word) :
    Memory.read (m.write a v) c = Memory.read m c := by
  induction m with
  | nil => unfold Memory.write; split <;> simp [Memory.read, h]
  | cons p m ih =>
    unfold Memory.write
    split_ifs <;> simp_all [Memory.read]

theorem Memory.read_write_same {lo : Nat} {m : Memory} (hm : Memory.wfFrom lo m = true) (a : Nat) (v : Word) :
    Memory.read (m.write a v) a = v := by
  induction m generalizing lo with
  | nil => unfold Memory.write; split <;> simp_all [Memory.read]
  | cons p m ih =>
    have hm' := hm
    simp only [Memory.wfFrom, Bool.and_eq_true, decide_eq_true_eq] at hm'
    unfold Memory.write
    split_ifs with h1 h2 h2 h3
    · rw [h2]
      refine Memory.read_below (lo := p.1) ?_ h1
      simp only [Memory.wfFrom, Bool.and_eq_true, decide_eq_true_eq]
      exact ⟨⟨⟨le_refl _, hm'.1.1.2⟩, hm'.1.2⟩, hm'.2⟩
    · simp [Memory.read]
    · rw [h3]; exact Memory.read_below hm'.2 (by omega)
    · simp [Memory.read]
    · rw [Memory.read, if_neg h2]; exact ih hm'.2

theorem Memory.write_wfFrom {lo : Nat} {m : Memory} (hm : Memory.wfFrom lo m = true) {a : Nat} (hlo : lo ≤ a)
    (ha : a < Config.memWords) (v : Word) : Memory.wfFrom lo (m.write a v) = true := by
  induction m generalizing lo with
  | nil =>
    unfold Memory.write
    split_ifs with hv
    · rfl
    · simp only [Memory.wfFrom, Bool.and_eq_true, decide_eq_true_eq]
      exact ⟨⟨⟨hlo, ha⟩, hv⟩, trivial⟩
  | cons p m ih =>
    have hm' := hm
    simp only [Memory.wfFrom, Bool.and_eq_true, decide_eq_true_eq] at hm'
    unfold Memory.write
    split_ifs with h1 h2 h2 h3
    · exact hm
    · simp only [Memory.wfFrom, Bool.and_eq_true, decide_eq_true_eq]
      exact ⟨⟨⟨hlo, ha⟩, h2⟩, ⟨⟨by omega, hm'.1.1.2⟩, hm'.1.2⟩, hm'.2⟩
    · exact Memory.wfFrom_mono (by omega) hm'.2
    · simp only [Memory.wfFrom, Bool.and_eq_true, decide_eq_true_eq]
      exact ⟨⟨⟨hlo, ha⟩, h3⟩, by rw [h2]; exact hm'.2⟩
    · simp only [Memory.wfFrom, Bool.and_eq_true, decide_eq_true_eq]
      exact ⟨hm'.1, ih hm'.2 (by omega)⟩

theorem Memory.write_wf {m : Memory} (hm : m.wf = true) {a : Nat} (ha : a < Config.memWords) (v : Word) :
    (m.write a v).wf = true := Memory.write_wfFrom hm (Nat.zero_le a) ha v

theorem Memory.place_wf {m : Memory} (hm : m.wf = true) {a : Nat} {ws : List Word}
    (h : a + ws.length ≤ Config.memWords) : (m.place a ws).wf = true := by
  induction ws generalizing m a with
  | nil => exact hm
  | cons w ws ih =>
    simp only [List.length_cons] at h
    exact ih (Memory.write_wf hm (by omega) w) (by omega)

theorem Memory.read_place_outside (m : Memory) {a c : Nat} {ws : List Word} (h : c < a ∨ a + ws.length ≤ c) :
    Memory.read (m.place a ws) c = Memory.read m c := by
  induction ws generalizing m a with
  | nil => rfl
  | cons w ws ih =>
    simp only [List.length_cons] at h
    rw [Memory.place, ih _ (by omega), Memory.read_write_ne _ (by omega)]

theorem Memory.read_place {m : Memory} (hm : m.wf = true) {a k : Nat} {ws : List Word}
    (h : a + ws.length ≤ Config.memWords) (hk : k < ws.length) :
    Memory.read (m.place a ws) (a + k) = ws[k] := by
  induction ws generalizing m a k with
  | nil => simp at hk
  | cons w ws ih =>
    simp only [List.length_cons] at h hk
    have hw : (m.write a w).wf = true := Memory.write_wf hm (by omega) w
    cases k with
    | zero =>
      rw [Memory.place, Memory.read_place_outside _ (by omega), Nat.add_zero]
      exact Memory.read_write_same hm a w
    | succ k =>
      have := ih hw (a := a + 1) (k := k) (by omega) (by omega)
      rw [Memory.place, show a + (k + 1) = a + 1 + k by omega, this]; rfl

/-! ## In the state -/

theorem State.memWrite_wf {s : State} (hs : s.mem.wf = true) (a : Word) (v : Value) :
    (s.memWrite a v).mem.wf = true := Memory.write_wf hs (and_addrMask_lt a) _

theorem State.placeAtPc_wf {s : State} (hs : s.mem.wf = true) (ws : List Word) (hpc : s.pc.toNat ≤ Config.memWords) :
    (s.mem.place s.pc.toNat (ws.take (Config.memWords - s.pc.toNat))).wf = true :=
  Memory.place_wf hs (by rw [List.length_take]; omega)

/-- R31, R32: a read after a write to the same cell gives the value written. -/
theorem State.memRead_memWrite_same {s : State} (hs : s.mem.wf = true) (a : Word) (v : Value) :
    (s.memWrite a v).memRead a = zext16 v := Memory.read_write_same hs _ _

/-- R32: a write leaves every other cell alone. -/
theorem State.memRead_memWrite_ne (s : State) {a c : Word} (h : (c &&& addrMask).toNat ≠ (a &&& addrMask).toNat)
    (v : Value) : (s.memWrite a v).memRead c = s.memRead c := Memory.read_write_ne _ h _

theorem State.reset_mem_wf : State.reset.mem.wf = true := rfl

/-- A memory read depends on the memory alone. -/
theorem State.memRead_congr {s t : State} (h : s.mem = t.mem) (a : Word) : s.memRead a = t.memRead a := by
  rw [State.memRead, State.memRead, h]

end Sys2Proof.Machine
end

