-- ==== Sys2Proof/Laws/Operands.lean ====
section
/-! SUPPORT. The operand forms and the store contract: what each does on each class of word, and everything it can
do. -/

namespace Sys2Proof.Machine

/-! ## Resolve-as-value (R63) -/

theorem State.val_of_isLit (s : State) {w : Word} (h : isLit w) : s.val w = some (w.setWidth 15) := by
  simp only [State.val, if_pos h]

theorem State.val_of_isReg (s : State) {w : Word} (h : isReg w) : s.val w = some (s.regs.get (regIdx w)) := by
  rw [State.val, if_neg (by omega), if_pos h]

theorem State.val_of_isBad (s : State) {w : Word} (h : isBad w) : s.val w = none := by
  rw [State.val, if_neg (by omega), if_neg (by omega)]

/-- A legal word has a value. -/
theorem State.val_isSome_of_legal (s : State) {w : Word} (h : legalWord w = true) : ∃ v, s.val w = some v := by
  rcases isLit_or_isReg_of_legal h with h | h
  · exact ⟨_, s.val_of_isLit h⟩
  · exact ⟨_, s.val_of_isReg h⟩

theorem State.onVal_of_some {s : State} {w : Word} {v : Value} (h : s.val w = some v) (op : Word) (seen : List Word)
    (k : Value → Result) : s.onVal op seen w k = k v := by
  simp only [State.onVal, h]

theorem State.onVal_of_isBad (s : State) {w : Word} (h : isBad w) (op : Word) (seen : List Word) (k : Value → Result) :
    s.onVal op seen w k =
      .next (s.enterFault .outOfRangeAddress (some op) (seen ++ [w]) (some w.toNat)) := by
  simp only [State.onVal, s.val_of_isBad h]

/-- Everything a value operand can do: go on with its value, or take the fault of R123. -/
theorem State.onVal_cases {s t : State} {op : Word} {seen : List Word} {w : Word} {k : Value → Result}
    (h : s.onVal op seen w k = .next t) :
    (∃ v, s.val w = some v ∧ k v = .next t) ∨
      t = s.enterFault .outOfRangeAddress (some op) (seen ++ [w]) (some w.toNat) := by
  unfold State.onVal at h
  split at h
  · exact .inl ⟨_, ‹_›, h⟩
  · exact .inr (by injection h with h; exact h.symm)

/-! ## Resolve-as-slot (R64) -/

theorem State.onSlot_of_legal (s : State) {w : Word} (h : legalWord w = true) (op : Word) (seen : List Word)
    (k : Word → Result) : s.onSlot op seen w k = k w := if_neg ((legalWord_iff w).1 h)

theorem State.onSlot_of_isBad (s : State) {w : Word} (h : isBad w) (op : Word) (seen : List Word) (k : Word → Result) :
    s.onSlot op seen w k =
      .next (s.enterFault .outOfRangeAddress (some op) (seen ++ [w]) (some w.toNat)) := if_pos h

/-- Everything a slot operand can do: go on with the word, or take the fault of R123. -/
theorem State.onSlot_cases {s t : State} {op : Word} {seen : List Word} {w : Word} {k : Word → Result}
    (h : s.onSlot op seen w k = .next t) :
    (legalWord w = true ∧ k w = .next t) ∨
      t = s.enterFault .outOfRangeAddress (some op) (seen ++ [w]) (some w.toNat) := by
  unfold State.onSlot at h
  split at h
  · exact .inr (by injection h with h; exact h.symm)
  · exact .inl ⟨(legalWord_iff w).2 ‹_›, h⟩

/-! ## The store contract (R65) -/

theorem State.put_of_isReg (s : State) {w : Word} (h : isReg w) (v : Value) :
    s.put w v = s.setReg (regIdx w) v := if_pos h

theorem State.put_of_isLit (s : State) {w : Word} (h : isLit w) (v : Value) :
    s.put w v = s.memWrite w v := if_neg (not_isReg_of_isLit h)

/-- A store touches registers and memory and nothing else. -/
theorem State.put_rest (s : State) (w : Word) (v : Value) :
    s.put w v = { s with regs := (s.put w v).regs, mem := (s.put w v).mem } := by
  unfold State.put; split <;> rfl

theorem State.put_mem_wf {s : State} (hs : s.mem.wf = true) (w : Word) (v : Value) : (s.put w v).mem.wf = true := by
  unfold State.put; split
  · exact hs
  · exact State.memWrite_wf hs w v

/-- A store leaves every register but the one its slot names alone. -/
theorem State.put_regs_frame (s : State) {w : Word} {r : Reg} (h : w ≠ regWord r) (v : Value) :
    (s.put w v).regs.get r = s.regs.get r := by
  unfold State.put; split
  · rename_i hw
    refine RegFile.get_set_ne _ (fun e => h ?_) v
    rw [e, regWord_regIdx hw]
  · rfl

/-- A store leaves every cell but the one its slot names alone. -/
theorem State.put_mem_frame (s : State) {w a : Word} (hw : legalWord w = true) (ha : isLit a) (h : w ≠ a) (v : Value) :
    (s.put w v).memRead a = s.memRead a := by
  rcases isLit_or_isReg_of_legal hw with hl | hr
  · rw [State.put_of_isLit s hl]
    refine State.memRead_memWrite_ne s ?_ v
    rw [and_addrMask_of_isLit ha, and_addrMask_of_isLit hl]
    exact fun e => h (BitVec.eq_of_toNat_eq e.symm)
  · rw [State.put_of_isReg s hr]; rfl

/-- Everything a store can do: write the slot, or take a fault of R125 or R123. -/
theorem State.store_cases {s0 s t : State} {op : Word} {ops : List Word} {slot : Word} {v : Nat}
    (h : s0.store op ops slot v s = .next t) :
    (v ≤ Config.valueMax ∧ legalWord slot = true ∧ t = s.put slot (BitVec.ofNat 15 v)) ∨
      ∃ c d, t = s0.enterFault c (some op) ops d := by
  unfold State.store at h
  split_ifs at h with h1 h2 <;> injection h with h
  · exact .inr ⟨_, _, h.symm⟩
  · exact .inr ⟨_, _, h.symm⟩
  · exact .inl ⟨by omega, (legalWord_iff slot).2 h2, h.symm⟩

theorem State.store_of_legal (s0 s : State) (op : Word) (ops : List Word) {slot : Word} (hs : legalWord slot = true)
    {v : Nat} (hv : v ≤ Config.valueMax) : s0.store op ops slot v s = .next (s.put slot (BitVec.ofNat 15 v)) := by
  rw [State.store, if_neg (by omega), if_neg ((legalWord_iff slot).1 hs)]

theorem State.store_of_big (s0 s : State) (op : Word) (ops : List Word) (slot : Word) {v : Nat}
    (hv : Config.valueMax < v) :
    s0.store op ops slot v s = .next (s0.enterFault .outOfRangeValue (some op) ops (some v)) := if_pos hv

/-! ## The computed read (R66) and the push (R67) -/

/-- R66, C5: a value is never a register reference, so the computed read is a memory read. -/
theorem State.loadAt_value (s : State) (v : Value) : s.loadAt (zext16 v) = some (s.memRead (zext16 v)) := by
  rw [State.loadAt, if_neg (not_isReg_of_isLit (zext16_isLit v)), if_pos (zext16_isLit v)]

/-- Everything a push can do: go on with the longer stack, or take the fault of R126. -/
theorem State.onPush_cases {s0 s t : State} {op : Word} {ops : List Word} {v : Word} {k : State → Result}
    (h : s0.onPush op ops v s k = .next t) :
    (s.stackFull = false ∧ k (s.setStack (v :: s.stack)) = .next t) ∨
      t = s0.enterFault .stackOverflow (some op) ops (some v.toNat) := by
  unfold State.onPush at h
  split_ifs at h with hf
  · exact .inr (by injection h with h; exact h.symm)
  · exact .inl ⟨by simpa using hf, h⟩

/-! ## Instruction shapes -/

/-- Everything a three-operand storing instruction can do. -/
theorem State.binary_cases {s t : State} {op : Word} {f : Value → Value → Value} {a b c : Word}
    (h : s.binary op f a b c = .next t) :
    (∃ vb vc, s.val b = some vb ∧ s.val c = some vc ∧ legalWord a = true ∧ t = (s.advance 4).put a (f vb vc)) ∨
      ∃ ws cause d, t = s.enterFault cause (some op) ws d := by
  rcases State.onSlot_cases h with ⟨ha, h⟩ | h
  · rcases State.onVal_cases h with ⟨vb, hb, h⟩ | h
    · rcases State.onVal_cases h with ⟨vc, hc, h⟩ | h
      · rcases State.store_cases h with ⟨-, -, h⟩ | ⟨c, d, h⟩
        · exact .inl ⟨vb, vc, hb, hc, ha, by simpa using h⟩
        · exact .inr ⟨_, _, _, h⟩
      · exact .inr ⟨_, _, _, h⟩
    · exact .inr ⟨_, _, _, h⟩
  · exact .inr ⟨_, _, _, h⟩

/-- Everything a two-operand storing instruction can do. -/
theorem State.unary_cases {s t : State} {op : Word} {f : Value → Value} {a b : Word}
    (h : s.unary op f a b = .next t) :
    (∃ vb, s.val b = some vb ∧ legalWord a = true ∧ t = (s.advance 3).put a (f vb)) ∨
      ∃ ws cause d, t = s.enterFault cause (some op) ws d := by
  rcases State.onSlot_cases h with ⟨ha, h⟩ | h
  · rcases State.onVal_cases h with ⟨vb, hb, h⟩ | h
    · rcases State.store_cases h with ⟨-, -, h⟩ | ⟨c, d, h⟩
      · exact .inl ⟨vb, hb, ha, by simpa using h⟩
      · exact .inr ⟨_, _, _, h⟩
    · exact .inr ⟨_, _, _, h⟩
  · exact .inr ⟨_, _, _, h⟩

/-- Everything a conditional jump can do. -/
theorem State.jumpIf_cases {s t : State} {op : Word} {cond : Value → Bool} {a b : Word}
    (h : s.jumpIf op cond a b = .next t) :
    (∃ va vb, s.val a = some va ∧ s.val b = some vb ∧
        t = if cond va then s.setPc (zext16 vb) else s.advance 3) ∨
      ∃ ws cause d, t = s.enterFault cause (some op) ws d := by
  rcases State.onVal_cases h with ⟨va, ha, h⟩ | h
  · rcases State.onVal_cases h with ⟨vb, hb, h⟩ | h
    · exact .inl ⟨va, vb, ha, hb, by injection h with h; exact h.symm⟩
    · exact .inr ⟨_, _, _, h⟩
  · exact .inr ⟨_, _, _, h⟩

end Sys2Proof.Machine
end

