-- ==== Sys2Proof/Laws/Exec.lean ====
section
/-! SUPPORT. What a legal operand is worth, what a store leaves, and everything one instruction can do. -/

namespace Sys2Proof.Machine

/-! ## Operands and stores in the terms of Safety.lean -/

/-- A legal operand word has a value, and it is the one Safety reads off the state. -/
theorem State.val_of_legal (s : State) {w : Word} (h : legalWord w = true) :
    ∃ v, s.val w = some v ∧ v.toNat = s.operandValue w ∧ zext16 v = BitVec.ofNat 16 (s.operandValue w) := by
  suffices H : ∃ v, s.val w = some v ∧ v.toNat = s.operandValue w by
    obtain ⟨v, h1, h2⟩ := H
    refine ⟨v, h1, h2, BitVec.eq_of_toNat_eq ?_⟩
    have := v.isLt
    rw [zext16_toNat, BitVec.toNat_ofNat, ← h2]; omega
  rcases isLit_or_isReg_of_legal h with h | h
  · refine ⟨_, s.val_of_isLit h, ?_⟩
    rw [State.operandValue, if_pos h, BitVec.toNat_setWidth]; omega
  · refine ⟨_, s.val_of_isReg h, ?_⟩
    rw [State.operandValue, if_neg (by omega)]

/-- A store into a legal slot leaves the value there and nothing else changed (R65). -/
theorem State.put_stores {s : State} (hs : s.mem.wf = true) {slot : Word} (h : legalWord slot = true) (v : Value)
    (n : Nat) : Stores s ((s.advance n).put slot v) slot v.toNat n where
  content := by
    rcases isLit_or_isReg_of_legal h with h | h
    · rw [State.put_of_isLit _ h, State.slotContent, if_pos h]
      exact (congrArg BitVec.toNat (State.memRead_memWrite_same (s := s.advance n) hs slot v)).trans (zext16_toNat v)
    · rw [State.put_of_isReg _ h, State.slotContent, if_neg (by omega)]
      exact congrArg BitVec.toNat (RegFile.get_set_same _ _ _)
  pc := by rw [State.put_rest]; rfl
  registers := fun r hr => State.put_regs_frame (s.advance n) hr.symm v
  cells := fun a ha hne => State.put_mem_frame (s.advance n) h ha hne.symm v
  rest := by rw [State.put_rest]; rfl

/-! ## Everything an instruction can do -/

/-- The states `t` an instruction `i` can lead to from `s` when exec answers a next state. -/
inductive Effect (s : State) : Instr → State → Prop
  /-- a fault (R127), taken in `s` -/
  | fault (i : Instr) (c : FaultCause) (ws : List Word) (d : Option Nat) (h : ws <+: i.operands) :
      Effect s i (s.enterFault c (some i.opcode) ws d)
  /-- a computed result stored into a slot operand (R82, R85, R86, R90 to R95, R97) -/
  | result (i : Instr) (slot : Word) (v : Value) (hi : i.slot = some slot) (h : legalWord slot = true) :
      Effect s i ((s.advance (1 + i.operands.length)).put slot v)
  | pop (a e : Word) (rest : List Word) (hst : s.stack = e :: rest) (h : legalWord a = true)
      (he : e.toNat ≤ 32767) : Effect s (.pop a) (((s.setStack rest).advance 2).put a (BitVec.ofNat 15 e.toNat))
  | wmem (a b : Word) (va vb : Value) (ha : s.val a = some va) (hb : s.val b = some vb) :
      Effect s (.wmem a b) ((s.advance 3).put (zext16 va) vb)
  | jmp (a : Word) (va : Value) (ha : s.val a = some va) : Effect s (.jmp a) (s.setPc (zext16 va))
  | jt (a b : Word) (va vb : Value) (ha : s.val a = some va) (hb : s.val b = some vb) :
      Effect s (.jt a b) (if isNonzero va then s.setPc (zext16 vb) else s.advance 3)
  | jf (a b : Word) (va vb : Value) (ha : s.val a = some va) (hb : s.val b = some vb) :
      Effect s (.jf a b) (if isZero va then s.setPc (zext16 vb) else s.advance 3)
  | push (a : Word) (va : Value) (ha : s.val a = some va) (hf : s.stackFull = false) :
      Effect s (.push a) ((s.advance 2).setStack (zext16 va :: s.stack))
  | call (a : Word) (va : Value) (ha : s.val a = some va) (hf : s.stackFull = false) :
      Effect s (.call a) ((s.setStack ((s.advance 2).pc :: s.stack)).setPc (zext16 va))
  | ret (e : Word) (rest : List Word) (hst : s.stack = e :: rest) : Effect s .ret ((s.setStack rest).setPc e)
  | retHalt (hst : s.stack = []) : Effect s .ret (s.setHalted.advance 1)
  | halt : Effect s .halt (s.setHalted.advance 1)
  | noop : Effect s .noop (s.advance 1)
  | flush (a : Word) (va : Value) (ha : s.val a = some va) (h : va.toNat = lineFeed) :
      Effect s (.out a) (((s.writeLine s.outacc).setOutacc []).advance 2)
  | append (a : Word) (va : Value) (ha : s.val a = some va) (h : va.toNat ≠ lineFeed) :
      Effect s (.out a) ((s.setOutacc (s.outacc ++ [va.toNat])).advance 2)
  /-- `in` stores the character it took -/
  | inp (a : Word) (s1 : State) (hr : s.refill = some s1) (h : legalWord a = true) (hc : s1.takeChar.1 ≤ 32767) :
      Effect s (.inp a) ((s1.takeChar.2.advance 2).put a (BitVec.ofNat 15 s1.takeChar.1))
  /-- `in` took a character whose code does not fit (R127 b) -/
  | inpFault (a : Word) (s1 : State) (c : FaultCause) (d : Option Nat) (hr : s.refill = some s1) :
      Effect s (.inp a) (s1.takeChar.2.enterFault c (some 20) [a] d)

theorem effect_of_binary {s t : State} {i : Instr} {f : Value → Value → Value} {a b c : Word}
    (hs : i.slot = some a) (ho : i.operands = [a, b, c]) (h : s.binary i.opcode f a b c = .next t) : Effect s i t := by
  have h4 : 4 = 1 + i.operands.length := by rw [ho]; rfl
  rcases State.onSlot_cases h with ⟨ha, h⟩ | rfl
  · rcases State.onVal_cases h with ⟨vb, -, h⟩ | rfl
    · rcases State.onVal_cases h with ⟨vc, -, h⟩ | rfl
      · rcases State.store_cases h with ⟨-, -, rfl⟩ | ⟨c, d, rfl⟩
        · rw [BitVec.ofNat_toNat, BitVec.setWidth_eq, h4]; exact .result i a _ hs ha
        · exact .fault i _ _ _ (by rw [ho])
      · exact .fault i _ _ _ (by simp [ho])
    · exact .fault i _ _ _ (by simp [ho])
  · exact .fault i _ _ _ (by simp [ho])

theorem effect_of_unary {s t : State} {i : Instr} {f : Value → Value} {a b : Word}
    (hs : i.slot = some a) (ho : i.operands = [a, b]) (h : s.unary i.opcode f a b = .next t) : Effect s i t := by
  have h3 : 3 = 1 + i.operands.length := by rw [ho]; rfl
  rcases State.onSlot_cases h with ⟨ha, h⟩ | rfl
  · rcases State.onVal_cases h with ⟨vb, -, h⟩ | rfl
    · rcases State.store_cases h with ⟨-, -, rfl⟩ | ⟨c, d, rfl⟩
      · rw [BitVec.ofNat_toNat, BitVec.setWidth_eq, h3]; exact .result i a _ hs ha
      · exact .fault i _ _ _ (by rw [ho])
    · exact .fault i _ _ _ (by simp [ho])
  · exact .fault i _ _ _ (by simp [ho])

theorem effect_of_pop {s t : State} {a : Word} (h : execPop a s = .next t) : Effect s (.pop a) t := by
  rcases State.onSlot_cases h with ⟨ha, h⟩ | rfl
  · split at h
    · injection h with h; subst h; exact .fault (.pop a) _ _ _ (List.prefix_rfl)
    · rcases State.store_cases h with ⟨he, -, rfl⟩ | ⟨c, d, rfl⟩
      · exact .pop a _ _ ‹_› ha he
      · exact .fault (.pop a) _ _ _ (List.prefix_rfl)
  · exact .fault (.pop a) _ _ _ (List.prefix_rfl)

theorem effect_of_push {s t : State} {a : Word} (h : execPush a s = .next t) : Effect s (.push a) t := by
  rcases State.onVal_cases h with ⟨va, ha, h⟩ | rfl
  · rcases State.onPush_cases h with ⟨hf, h⟩ | rfl
    · injection h with h; subst h; exact .push a va ha hf
    · exact .fault (.push a) _ _ _ (List.prefix_rfl)
  · exact .fault (.push a) _ _ _ (List.prefix_rfl)

theorem effect_of_call {s t : State} {a : Word} (h : execCall a s = .next t) : Effect s (.call a) t := by
  rcases State.onVal_cases h with ⟨va, ha, h⟩ | rfl
  · rcases State.onPush_cases h with ⟨hf, h⟩ | rfl
    · injection h with h; subst h; exact .call a va ha hf
    · exact .fault (.call a) _ _ _ (List.prefix_rfl)
  · exact .fault (.call a) _ _ _ (List.prefix_rfl)

theorem effect_of_jmp {s t : State} {a : Word} (h : execJmp a s = .next t) : Effect s (.jmp a) t := by
  rcases State.onVal_cases h with ⟨va, ha, h⟩ | rfl
  · injection h with h; subst h; exact .jmp a va ha
  · exact .fault (.jmp a) _ _ _ (List.prefix_rfl)

theorem effect_of_jt {s t : State} {a b : Word} (h : execJt a b s = .next t) : Effect s (.jt a b) t := by
  rcases State.onVal_cases h with ⟨va, ha, h⟩ | rfl
  · rcases State.onVal_cases h with ⟨vb, hb, h⟩ | rfl
    · injection h with h; subst h; exact .jt a b va vb ha hb
    · exact .fault (.jt a b) _ _ _ (List.prefix_rfl)
  · exact .fault (.jt a b) _ _ _ (by simp [Instr.operands])

theorem effect_of_jf {s t : State} {a b : Word} (h : execJf a b s = .next t) : Effect s (.jf a b) t := by
  rcases State.onVal_cases h with ⟨va, ha, h⟩ | rfl
  · rcases State.onVal_cases h with ⟨vb, hb, h⟩ | rfl
    · injection h with h; subst h; exact .jf a b va vb ha hb
    · exact .fault (.jf a b) _ _ _ (List.prefix_rfl)
  · exact .fault (.jf a b) _ _ _ (by simp [Instr.operands])

theorem effect_of_mod {s t : State} {a b c : Word} (h : execMod a b c s = .next t) : Effect s (.mod a b c) t := by
  rcases State.onSlot_cases h with ⟨ha, h⟩ | rfl
  · rcases State.onVal_cases h with ⟨vb, -, h⟩ | rfl
    · rcases State.onVal_cases h with ⟨vc, -, h⟩ | rfl
      · split_ifs at h
        · injection h with h; subst h; exact .fault (.mod a b c) _ _ _ (List.prefix_rfl)
        · rcases State.store_cases h with ⟨-, -, rfl⟩ | ⟨c, d, rfl⟩
          · rw [BitVec.ofNat_toNat, BitVec.setWidth_eq]; exact .result (.mod a b c) a _ rfl ha
          · exact .fault (.mod _ _ _) _ _ _ (List.prefix_rfl)
      · exact .fault (.mod a b c) _ _ _ (List.prefix_rfl)
    · exact .fault (.mod a b c) _ _ _ (by simp [Instr.operands])
  · exact .fault (.mod a b c) _ _ _ (by simp [Instr.operands])

theorem effect_of_rmem {s t : State} {a b : Word} (h : execRmem a b s = .next t) : Effect s (.rmem a b) t := by
  rcases State.onSlot_cases h with ⟨ha, h⟩ | rfl
  · rcases State.onVal_cases h with ⟨vb, -, h⟩ | rfl
    · rw [State.loadAt_value] at h
      rcases State.store_cases h with ⟨-, -, rfl⟩ | ⟨c, d, rfl⟩
      · exact .result (.rmem a b) a _ rfl ha
      · exact .fault (.rmem a b) _ _ _ (List.prefix_rfl)
    · exact .fault (.rmem a b) _ _ _ (List.prefix_rfl)
  · exact .fault (.rmem a b) _ _ _ (by simp [Instr.operands])

theorem effect_of_wmem {s t : State} {a b : Word} (h : execWmem a b s = .next t) : Effect s (.wmem a b) t := by
  rcases State.onVal_cases h with ⟨va, ha, h⟩ | rfl
  · rcases State.onVal_cases h with ⟨vb, hb, h⟩ | rfl
    · rcases State.store_cases h with ⟨-, -, rfl⟩ | ⟨c, d, rfl⟩
      · rw [BitVec.ofNat_toNat, BitVec.setWidth_eq]; exact .wmem a b va vb ha hb
      · exact .fault (.wmem a b) _ _ _ (List.prefix_rfl)
    · exact .fault (.wmem a b) _ _ _ (List.prefix_rfl)
  · exact .fault (.wmem a b) _ _ _ (by simp [Instr.operands])

theorem effect_of_ret {s t : State} (h : execRet s = .next t) : Effect s .ret t := by
  unfold execRet at h
  split at h <;> injection h with h <;> subst h
  · exact .retHalt ‹_›
  · exact .ret _ _ ‹_›

theorem effect_of_out {s t : State} {a : Word} (h : execOut a s = .next t) : Effect s (.out a) t := by
  rcases State.onVal_cases h with ⟨va, ha, h⟩ | rfl
  · split_ifs at h with hl <;> injection h with h <;> subst h
    · exact .flush a va ha hl
    · exact .append a va ha hl
  · exact .fault (.out a) _ _ _ (List.prefix_rfl)

theorem effect_of_in {s t : State} {a : Word} (h : execIn a s = .next t) : Effect s (.inp a) t := by
  rcases State.onSlot_cases h with ⟨ha, h⟩ | rfl
  · split at h
    · cases h
    · rename_i s1 hr
      rcases State.store_cases h with ⟨hc, -, rfl⟩ | ⟨c, d, rfl⟩
      · exact .inp a s1 hr ha hc
      · exact .inpFault a s1 _ _ hr
  · exact .fault (.inp a) _ _ _ (List.prefix_rfl)

/-- Everything an instruction can do: what exec answers as a next state is one of the effects. -/
theorem exec_effect {i : Instr} {s t : State} (h : exec i s = .next t) : Effect s i t := by
  cases i with
  | halt => injection h with h; subst h; exact .halt
  | set a b => exact effect_of_unary rfl rfl h
  | push a => exact effect_of_push h
  | pop a => exact effect_of_pop h
  | eq a b c => exact effect_of_binary rfl rfl h
  | gt a b c => exact effect_of_binary rfl rfl h
  | jmp a => exact effect_of_jmp h
  | jt a b => exact effect_of_jt h
  | jf a b => exact effect_of_jf h
  | add a b c => exact effect_of_binary rfl rfl h
  | mult a b c => exact effect_of_binary rfl rfl h
  | mod a b c => exact effect_of_mod h
  | and a b c => exact effect_of_binary rfl rfl h
  | or a b c => exact effect_of_binary rfl rfl h
  | not a b => exact effect_of_unary rfl rfl h
  | rmem a b => exact effect_of_rmem h
  | wmem a b => exact effect_of_wmem h
  | call a => exact effect_of_call h
  | ret => exact effect_of_ret h
  | out a => exact effect_of_out h
  | inp a => exact effect_of_in h
  | noop => injection h with h; subst h; exact .noop

/-! ## The console's part of `in` -/

/-- A refill touches the input queue and the console alone (R104). -/
theorem State.refill_rest {s s1 : State} (h : s.refill = some s1) :
    s1 = { s with inq := s1.inq, consoleScript := s1.consoleScript, consoleReads := s1.consoleReads } := by
  unfold State.refill State.readLine at h
  split at h
  · injection h with h; rw [← h]
  · split at h
    · cases h
    · rename_i hl
      injection h with h
      subst h
      split at hl
      · cases hl; rfl
      · cases hl
      · split at hl <;> cases hl
        rfl

/-- Taking a character touches the input queue alone (R104). -/
theorem State.takeChar_rest (s : State) : s.takeChar.2 = { s with inq := s.takeChar.2.inq } := by
  unfold State.takeChar; split <;> rfl

/-- The state from which `in` stores or faults differs from `s` in the input queue and the console alone. -/
theorem State.taken_rest {s s1 : State} (h : s.refill = some s1) :
    s1.takeChar.2 = { s with
      inq := s1.takeChar.2.inq, consoleScript := s1.takeChar.2.consoleScript,
      consoleReads := s1.takeChar.2.consoleReads } := by
  have h1 := State.refill_rest h
  rw [State.takeChar_rest s1, h1]

/-! ## The step -/

/-- Everything a step can do: stay in a stopped machine, take a fetch's fault, or run the fetched instruction. -/
theorem step_cases {s t : State} (h : step s = .next t) :
    (s.stopped = true ∧ t = s) ∨
      (s.stopped = false ∧ ∃ e, decode s.regs.get (s.fetchWords 4) = .error e ∧ t = s.decodeFault e) ∨
      (s.stopped = false ∧ ∃ i rest, decode s.regs.get (s.fetchWords 4) = .ok (i, rest) ∧ exec i s = .next t) := by
  unfold step State.fetchDecode at h
  cases hs : s.stopped with
  | true => rw [hs] at h; injection h with h; exact .inl ⟨rfl, h.symm⟩
  | false =>
    rw [hs] at h
    cases hd : decode s.regs.get (s.fetchWords 4) with
    | error e => rw [hd] at h; injection h with h; exact .inr (.inl ⟨rfl, e, rfl, h.symm⟩)
    | ok p => rw [hd] at h; exact .inr (.inr ⟨rfl, p.1, p.2, rfl, h⟩)

/-- The fault of a fetch changes the latch alone. -/
theorem State.decodeFault_eq (s : State) (e : DecodeError) :
    ∃ c o ws d, s.decodeFault e = s.enterFault c o ws d := by
  cases e <;> exact ⟨_, _, _, _, rfl⟩

end Sys2Proof.Machine
end

