-- ==== Sys2Proof/Laws/Decode.lean ====
section
/-! SUPPORT. The decoder's parts: taking the operand words, assembling, the opcode map; and the words a step fetches. -/

namespace Sys2Proof

/-! ## Taking the operand words (R63, R64, R71) -/

/-- Legal operand words are all taken. -/
theorem takeOperands_legal (op : Word) (l rest seen : List Word) (h : l.all legalWord = true) :
    takeOperands op l.length seen (l ++ rest) = .ok (seen ++ l, rest) := by
  induction l generalizing seen with
  | nil => simp [takeOperands]
  | cons w l ih =>
    simp only [List.all_cons, Bool.and_eq_true] at h
    rw [List.length_cons, List.cons_append, takeOperands, if_neg ((legalWord_iff w).1 h.1), ih _ h.2]
    simp

/-- What has been taken is legal and stood at the front. -/
theorem takeOperands_inv {op : Word} {n : Nat} {seen ws ops rest : List Word}
    (h : takeOperands op n seen ws = .ok (ops, rest)) :
    ∃ l, l.length = n ∧ l.all legalWord = true ∧ ws = l ++ rest ∧ ops = seen ++ l := by
  induction n generalizing seen ws with
  | zero =>
    simp only [takeOperands, Except.ok.injEq, Prod.mk.injEq] at h
    exact ⟨[], rfl, rfl, h.2, by simp [h.1]⟩
  | succ n ih =>
    cases ws with
    | nil => cases h
    | cons w ws =>
      rw [takeOperands] at h
      split_ifs at h with hb
      obtain ⟨l, h1, h2, h3, h4⟩ := ih h
      exact ⟨w :: l, by simp [h1], by simp [h2, (legalWord_iff w).2 hb], by simp [h3], by simp [h4]⟩

/-- Legal words that end too early give noOperand. -/
theorem takeOperands_short (op : Word) {n : Nat} (l seen : List Word) (hn : l.length < n)
    (hl : ∀ w ∈ l, legalWord w = true) : takeOperands op n seen l = .error (.noOperand op (seen ++ l)) := by
  induction l generalizing n seen with
  | nil =>
    cases n with
    | zero => simp at hn
    | succ n => simp [takeOperands]
  | cons w l ih =>
    cases n with
    | zero => simp at hn
    | succ n =>
      rw [takeOperands, if_neg ((legalWord_iff w).1 (hl w (by simp))),
        ih _ (by simpa using hn) fun v hv => hl v (by simp [hv])]
      simp

/-- The first illegal word gives illegalOperand. -/
theorem takeOperands_illegal (op : Word) {n : Nat} (l seen rest : List Word) {w : Word} (hn : l.length < n)
    (hl : ∀ v ∈ l, legalWord v = true) (hb : isBad w) :
    takeOperands op n seen (l ++ w :: rest) = .error (.illegalOperand op (seen ++ l) w) := by
  induction l generalizing n seen with
  | nil =>
    cases n with
    | zero => simp at hn
    | succ n => simp [takeOperands, hb]
  | cons v l ih =>
    cases n with
    | zero => simp at hn
    | succ n =>
      rw [List.cons_append, takeOperands, if_neg ((legalWord_iff v).1 (hl v (by simp))),
        ih _ (by simpa using hn) fun u hu => hl u (by simp [hu])]
      simp

/-! ## The opcode map (R50, R51, R53) -/

/-- What assembles has the opcode and the operand words it was assembled from. -/
theorem assemble_inv {n : Nat} {ops : List Word} {i : Instr} (h : assemble n ops = some i) :
    i.opcode.toNat = n ∧ i.operands = ops := by
  rcases ops with _ | ⟨a, _ | ⟨b, _ | ⟨c, _ | ⟨d, ops⟩⟩⟩⟩
  · simp only [assemble] at h; unfold assemble0 at h
    split at h <;> first | (injection h with h; subst h; exact ⟨rfl, rfl⟩) | cases h
  · simp only [assemble] at h; unfold assemble1 at h
    split at h <;> first | (injection h with h; subst h; exact ⟨rfl, rfl⟩) | cases h
  · simp only [assemble] at h; unfold assemble2 at h
    split at h <;> first | (injection h with h; subst h; exact ⟨rfl, rfl⟩) | cases h
  · simp only [assemble] at h; unfold assemble3 at h
    split at h <;> first | (injection h with h; subst h; exact ⟨rfl, rfl⟩) | cases h
  · cases h

theorem operandCount_le {n m : Nat} (h : operandCount n = some m) : m ≤ 3 := by
  unfold operandCount at h; split at h <;> cases h <;> omega

theorem operandCount_none {n : Nat} (h : 21 < n) : operandCount n = none := by
  unfold operandCount; split <;> first | omega | rfl

/-! ## The opcode word (R69) -/

theorem resolveOpcode_of_not_isReg (x : Reg → Value) {w : Word} (h : ¬ isReg w) : resolveOpcode x w = w := if_neg h

theorem resolveOpcode_regWord (x : Reg → Value) (r : Reg) : resolveOpcode x (regWord r) = zext16 (x r) := by
  rw [resolveOpcode, if_pos (isReg_regWord r), regIdx_regWord]

end Sys2Proof

namespace Sys2Proof.Machine

/-! ## The words a step fetches (R62) -/

/-- `n` fetches read the cells from the pc on, as far as there are cells. -/
theorem State.fetchWords_eq (n : Nat) (s : State) (h : s.pc.toNat ≤ 32768) :
    s.fetchWords n =
      (List.range (min n (32768 - s.pc.toNat))).map fun k => s.memRead (s.pc + BitVec.ofNat 16 k) := by
  induction n generalizing s with
  | zero => simp [State.fetchWords]
  | succ n ih =>
    unfold State.fetchWords State.fetchWord
    by_cases hp : 32767 < s.pc.toNat
    · rw [if_pos hp, show min (n + 1) (32768 - s.pc.toNat) = 0 by omega]; rfl
    · rw [if_neg hp]
      have hpc : (s.advance 1).pc.toNat = s.pc.toNat + 1 := by
        rw [State.advance_pc, BitVec.toNat_add, BitVec.toNat_ofNat]; omega
      change s.memRead s.pc :: State.fetchWords n (s.advance 1) = _
      rw [ih _ (by omega), hpc, show min (n + 1) (32768 - s.pc.toNat) = min n (32768 - (s.pc.toNat + 1)) + 1 by omega,
        List.range_succ_eq_map, List.map_cons, List.map_map, BitVec.add_zero]
      congr 1
      refine List.map_congr_left fun k _ => ?_
      refine congrArg s.memRead ?_
      rw [State.advance_pc, BitVec.add_assoc, ← BitVec.ofNat_add, Nat.add_comm 1 k]

/-- The four words of a step: the opcode cell, then as many operand cells as there are, at most three. -/
theorem State.fetchWords_four {s : State} (h : s.pc.toNat ≤ 32767) :
    s.fetchWords 4 = s.memRead s.pc :: s.operandCells (min 3 (32767 - s.pc.toNat)) := by
  rw [State.fetchWords_eq 4 s (by omega),
    show min 4 (32768 - s.pc.toNat) = min 3 (32767 - s.pc.toNat) + 1 by omega, List.range_succ_eq_map,
    List.map_cons, List.map_map, BitVec.add_zero]
  rfl

end Sys2Proof.Machine
end

