-- ==== Sys2Proof/Laws/PerInstr.lean ====
section
/-! SUPPORT. The shape of an instruction's encoding (R48, R51, R55), said per constructor: its opcode is in the map, the
map gives its operand count, and it has one to four cells. -/

namespace Sys2Proof.Laws.Shape

/-- R51 and R55 for one instruction. -/
def Statement (i : Instr) : Prop :=
  i.opcode.toNat ≤ 21 ∧ operandCount i.opcode.toNat = some i.operands.length ∧
    (encode i).length = 1 + i.operands.length ∧ (encode i).length ≤ 4 ∧
    assemble i.opcode.toNat i.operands = some i

theorem halt : Statement .halt :=
  ⟨Nat.le_of_ble_eq_true rfl, rfl, rfl, Nat.le_of_ble_eq_true rfl, rfl⟩
theorem set (a b : Word) : Statement (.set a b) :=
  ⟨Nat.le_of_ble_eq_true rfl, rfl, rfl, Nat.le_of_ble_eq_true rfl, rfl⟩
theorem push (a : Word) : Statement (.push a) :=
  ⟨Nat.le_of_ble_eq_true rfl, rfl, rfl, Nat.le_of_ble_eq_true rfl, rfl⟩
theorem pop (a : Word) : Statement (.pop a) :=
  ⟨Nat.le_of_ble_eq_true rfl, rfl, rfl, Nat.le_of_ble_eq_true rfl, rfl⟩
theorem eq (a b c : Word) : Statement (.eq a b c) :=
  ⟨Nat.le_of_ble_eq_true rfl, rfl, rfl, Nat.le_of_ble_eq_true rfl, rfl⟩
theorem gt (a b c : Word) : Statement (.gt a b c) :=
  ⟨Nat.le_of_ble_eq_true rfl, rfl, rfl, Nat.le_of_ble_eq_true rfl, rfl⟩
theorem jmp (a : Word) : Statement (.jmp a) :=
  ⟨Nat.le_of_ble_eq_true rfl, rfl, rfl, Nat.le_of_ble_eq_true rfl, rfl⟩
theorem jt (a b : Word) : Statement (.jt a b) :=
  ⟨Nat.le_of_ble_eq_true rfl, rfl, rfl, Nat.le_of_ble_eq_true rfl, rfl⟩
theorem jf (a b : Word) : Statement (.jf a b) :=
  ⟨Nat.le_of_ble_eq_true rfl, rfl, rfl, Nat.le_of_ble_eq_true rfl, rfl⟩
theorem add (a b c : Word) : Statement (.add a b c) :=
  ⟨Nat.le_of_ble_eq_true rfl, rfl, rfl, Nat.le_of_ble_eq_true rfl, rfl⟩
theorem mult (a b c : Word) : Statement (.mult a b c) :=
  ⟨Nat.le_of_ble_eq_true rfl, rfl, rfl, Nat.le_of_ble_eq_true rfl, rfl⟩
theorem mod (a b c : Word) : Statement (.mod a b c) :=
  ⟨Nat.le_of_ble_eq_true rfl, rfl, rfl, Nat.le_of_ble_eq_true rfl, rfl⟩
theorem and (a b c : Word) : Statement (.and a b c) :=
  ⟨Nat.le_of_ble_eq_true rfl, rfl, rfl, Nat.le_of_ble_eq_true rfl, rfl⟩
theorem or (a b c : Word) : Statement (.or a b c) :=
  ⟨Nat.le_of_ble_eq_true rfl, rfl, rfl, Nat.le_of_ble_eq_true rfl, rfl⟩
theorem not (a b : Word) : Statement (.not a b) :=
  ⟨Nat.le_of_ble_eq_true rfl, rfl, rfl, Nat.le_of_ble_eq_true rfl, rfl⟩
theorem rmem (a b : Word) : Statement (.rmem a b) :=
  ⟨Nat.le_of_ble_eq_true rfl, rfl, rfl, Nat.le_of_ble_eq_true rfl, rfl⟩
theorem wmem (a b : Word) : Statement (.wmem a b) :=
  ⟨Nat.le_of_ble_eq_true rfl, rfl, rfl, Nat.le_of_ble_eq_true rfl, rfl⟩
theorem call (a : Word) : Statement (.call a) :=
  ⟨Nat.le_of_ble_eq_true rfl, rfl, rfl, Nat.le_of_ble_eq_true rfl, rfl⟩
theorem ret : Statement .ret :=
  ⟨Nat.le_of_ble_eq_true rfl, rfl, rfl, Nat.le_of_ble_eq_true rfl, rfl⟩
theorem out (a : Word) : Statement (.out a) :=
  ⟨Nat.le_of_ble_eq_true rfl, rfl, rfl, Nat.le_of_ble_eq_true rfl, rfl⟩
theorem inp (a : Word) : Statement (.inp a) :=
  ⟨Nat.le_of_ble_eq_true rfl, rfl, rfl, Nat.le_of_ble_eq_true rfl, rfl⟩
theorem noop : Statement .noop :=
  ⟨Nat.le_of_ble_eq_true rfl, rfl, rfl, Nat.le_of_ble_eq_true rfl, rfl⟩

end Sys2Proof.Laws.Shape
end

