-- ==== Sys2Proof/Tests/Slice0.lean ====
section
/-! SUPPORT. Tests. Expected results are those of spec/95_test_vectors.md (V<n>, X<n>, P<n>) or of the examples in the
instruction rules; each test takes one step on a small state. At the end, a witness for the hypotheses of every
statement of Certificates/Slice0/Obligations.lean that has any. -/

namespace Sys2Proof.Tests

open Sys2Proof Sys2Proof.Machine

/-- The reset machine with an image loaded (R141). -/
def boot (ws : List Word) : State := { State.reset with mem := Memory.place [] 0 ws }

/-- A machine with cells placed from address `a` and the pc there. -/
def bootAt (a : Word) (ws : List Word) : State := { State.reset with mem := Memory.place [] a.toNat ws, pc := a }

/-- The state with one register set. -/
def withReg (r : Reg) (v : Value) (s : State) : State := s.setReg r v

/-- What `f` sees in the next state of one step. -/
def seen {α : Type} (f : State → α) (s : State) : Option α :=
  match step s with
  | .next t => some (f t)
  | .fault _ => none
  | .refused _ => none

/-- The fault record after one step. -/
def faultOf (s : State) : Option FaultRecord := (seen (fun t => t.fault) s).join

/-! ## WellFormed: an ill-formed term for each operand position, and the largest legal word -/

theorem test_wellFormed_accepts_bounds :
    (Instr.add 32775 32767 0).wellFormed = true ∧ (Instr.noop).wellFormed = true := by decide

theorem test_wellFormed_refuses_one_operand :
    [Instr.push 32776, .pop 32776, .jmp 40000, .call 65535, .out 32776, .inp 40000].all
      (fun i => !i.wellFormed) = true := by decide

theorem test_wellFormed_refuses_a :
    [Instr.set 32776 0, .jt 32776 0, .jf 32776 0, .not 32776 0, .rmem 32776 0, .wmem 40000 5, .eq 32776 0 0,
      .gt 32776 0 0, .add 65535 1 1, .mult 32776 0 0, .mod 32776 0 0, .and 32776 0 0, .or 32776 0 0].all
      (fun i => !i.wellFormed) = true := by decide

theorem test_wellFormed_refuses_b :
    [Instr.set 0 32776, .jt 0 40000, .jf 0 32776, .not 0 32776, .rmem 0 32776, .wmem 0 32776, .eq 0 32776 0,
      .gt 0 32776 0, .add 0 32776 0, .mult 0 32776 0, .mod 0 32776 0, .and 0 32776 0, .or 0 32776 0].all
      (fun i => !i.wellFormed) = true := by decide

theorem test_wellFormed_refuses_c :
    [Instr.eq 0 0 32776, .gt 0 0 32776, .add 0 0 32776, .mult 0 0 32776, .mod 0 0 32776, .and 0 0 32776,
      .or 0 0 32776].all (fun i => !i.wellFormed) = true := by decide

/-! ## Decoding (R50, R51): every constructor, its words written out from the table of R50 -/

theorem test_decode_F0 (x : Reg → Value) :
    decode x [0] = .ok (.halt, []) ∧ decode x [18] = .ok (.ret, []) ∧ decode x [21] = .ok (.noop, []) :=
  ⟨rfl, rfl, rfl⟩

theorem test_decode_F1 (x : Reg → Value) :
    decode x [2, 32770] = .ok (.push 32770, []) ∧ decode x [3, 200] = .ok (.pop 200, []) ∧
    decode x [6, 32767] = .ok (.jmp 32767, []) ∧ decode x [17, 300] = .ok (.call 300, []) ∧
    decode x [19, 72] = .ok (.out 72, []) ∧ decode x [20, 32768] = .ok (.inp 32768, []) :=
  ⟨rfl, rfl, rfl, rfl, rfl, rfl⟩

theorem test_decode_F2 (x : Reg → Value) :
    decode x [1, 32768, 4] = .ok (.set 32768 4, []) ∧ decode x [7, 32767, 32769] = .ok (.jt 32767 32769, []) ∧
    decode x [8, 1, 9] = .ok (.jf 1 9, []) ∧ decode x [14, 32768, 21845] = .ok (.not 32768 21845, []) ∧
    decode x [15, 50, 3] = .ok (.rmem 50 3, []) ∧ decode x [16, 20, 32768] = .ok (.wmem 20 32768, []) :=
  ⟨rfl, rfl, rfl, rfl, rfl, rfl⟩

theorem test_decode_F3 (x : Reg → Value) :
    decode x [4, 32768, 5, 6] = .ok (.eq 32768 5 6, []) ∧ decode x [5, 300, 9, 7] = .ok (.gt 300 9 7, []) ∧
    decode x [9, 32769, 32769, 32768] = .ok (.add 32769 32769 32768, []) ∧
    decode x [10, 32768, 181, 182] = .ok (.mult 32768 181 182, []) ∧
    decode x [11, 32768, 7, 3] = .ok (.mod 32768 7 3, []) ∧
    decode x [12, 32768, 21845, 13107] = .ok (.and 32768 21845 13107, []) ∧
    decode x [13, 32768, 21845, 10922] = .ok (.or 32768 21845 10922, []) :=
  ⟨rfl, rfl, rfl, rfl, rfl, rfl, rfl⟩

/-- V126, V128, V129 and R55: what is left over, the smallest illegal word, the largest register reference. -/
theorem test_decode_edges :
    decode (fun _ => 1) [32768, 32769, 9, 77] = .ok (.set 32769 9, [77]) ∧
    decode (fun _ => 0) [1, 32768, 32776] = .error (.illegalOperand 1 [32768] 32776) ∧
    decode (fun _ => 0) [1, 32768, 32775] = .ok (.set 32768 32775, []) ∧
    decode (fun _ => 0) [22] = .error (.invalidOpcode 22) ∧
    decode (fun _ => 0) [40000] = .error (.invalidOpcode 40000) ∧
    decode (fun _ => 0) [9, 0, 0] = .error (.noOperand 9 [0, 0]) ∧
    decode (fun _ => 0) [] = .error .noOpcode := ⟨rfl, rfl, rfl, rfl, rfl, rfl, rfl⟩

/-- The table's rows as numbers: word 0 in bits 15..0, word 1 in bits 31..16. -/
theorem test_decodeTableWord :
    decodeTableWord 16 0 = some .halt ∧ decodeTableWord 16 9 = some (.add 0 0 0) ∧
    decodeTableWord 32 (19 + 65536 * 72) = some (.out 72) ∧ decodeTableWord 16 (19 + 65536 * 72) = some (.out 0) ∧
    decodeTableWord 16 22 = none := by decide

/-- The placed instruction is the first to run after reset. -/
theorem test_withFetchWord :
    seen (fun t => (t.regs.x0, t.pc)) (State.reset.withFetchWord 48 (1 + 65536 * 32768 + 4294967296 * 4)) =
      some (4, 3) := by decide

/-- X10: five bytes give two words, low byte first. -/
theorem test_imageWords : imageWords [0x13, 0x00, 0x48, 0x00, 0x07] = [19, 72] ∧ imageWords [0x00, 0x80] = [32768] := by
  decide

/-! ## Fetch and stop -/

/-- V110: a fetch with the pc at 32768. -/
theorem test_fetch_above_top : faultOf (bootAt 32768 []) = some ⟨.outOfRangeAddress, 32768, none, [], some 32768⟩ := by
  decide

/-- V127: the opcode at 32767, its operand beyond the top. -/
theorem test_fetch_operand_above_top :
    faultOf (bootAt 32767 [2]) = some ⟨.outOfRangeAddress, 32767, some 2, [], some 32768⟩ ∧
    seen (fun t => t.pc) (bootAt 32767 [2]) = some 32767 := by decide

/-- V78: an illegal a faults before b is fetched. -/
theorem test_illegal_slot :
    faultOf (boot [9, 65535, 1, 1]) = some ⟨.outOfRangeAddress, 0, some 9, [65535], some 65535⟩ := by decide

/-- V45: b is resolved although the jump would not be taken. -/
theorem test_untaken_jump_resolves_target :
    faultOf (boot [7, 0, 40000]) = some ⟨.outOfRangeAddress, 0, some 7, [0, 40000], some 40000⟩ := by decide

/-- X9, V125: opcode 99, and 22 from a register. -/
theorem test_invalid_opcode :
    faultOf (boot [99]) = some ⟨.invalidOpcode, 0, some 99, [], some 99⟩ ∧
    faultOf (withReg .r1 22 (boot [32769])) = some ⟨.invalidOpcode, 0, some 22, [], some 22⟩ := by decide

/-- V4: no transition of a halted machine. -/
theorem test_halted_stays : step { boot [21] with halted := true } = .next { boot [21] with halted := true } := rfl

/-! ## halt, noop -/

/-- V1, V6. -/
theorem test_halt : seen (fun t => (t.halted, t.pc)) (boot [0]) = some (true, 1) := by decide
theorem test_halt_at_top : seen (fun t => (t.halted, t.pc, t.fault)) (bootAt 32767 [0]) = some (true, 32768, none) := by
  decide

/-- V2, V123 (indirect). -/
theorem test_noop : seen (fun t => (t.halted, t.pc)) (boot [21]) = some (false, 1) := by decide
theorem test_noop_indirect : seen (fun t => (t.halted, t.pc)) (withReg .r1 21 (boot [32769])) = some (false, 1) := by
  decide

/-! ## set, push, pop -/

/-- V11, V14: a register copy; an instruction that overwrites its own cell. -/
theorem test_set_register : seen (fun t => (t.regs.x7, t.pc)) (withReg .r1 77 (boot [1, 32775, 32769])) = some (77, 3) := by
  decide
theorem test_set_own_cell : seen (fun t => (t.mem, t.pc)) (boot [1, 1, 7]) = some ([(0, 1), (1, 7), (2, 7)], 3) := by
  decide

/-- V16, V22. -/
theorem test_push : seen (fun t => (t.stack, t.pc)) { withReg .r2 300 (boot [2, 32770]) with stack := [1] } =
    some ([300, 1], 2) := by decide
theorem test_push_full :
    faultOf { boot [2, 3] with stack := [2, 1], stackCapacity := some 2 } =
      some ⟨.stackOverflow, 0, some 2, [3], some 3⟩ := by decide

/-- V18; V19, V20 and V21 together: the three faults of pop. -/
theorem test_pop_memory : seen (fun t => (t.memRead 200, t.stack, t.pc)) { boot [3, 200] with stack := [9] } =
    some (9, [], 2) := by decide
theorem test_pop_faults :
    faultOf (boot [3, 32768]) = some ⟨.stackUnderflow, 0, some 3, [32768], none⟩ ∧
    faultOf (boot [3, 40000]) = some ⟨.outOfRangeAddress, 0, some 3, [40000], some 40000⟩ ∧
    faultOf { boot [3, 32768] with stack := [32768] } = some ⟨.outOfRangeValue, 0, some 3, [32768], some 32768⟩ ∧
    seen (fun t => t.stack) { boot [3, 32768] with stack := [32768] } = some [32768] := by decide

/-! ## eq, gt -/

/-- V25, V28. -/
theorem test_eq_equal : seen (fun t => (t.regs.x0, t.pc)) (withReg .r0 9 (boot [4, 32768, 5, 5])) = some (1, 4) := by decide
theorem test_eq_unequal : seen (fun t => (t.regs.x0, t.pc)) (withReg .r0 9 (boot [4, 32768, 0, 32767])) = some (0, 4) := by
  decide

/-- V29, V31. -/
theorem test_gt_unsigned : seen (fun t => (t.regs.x0, t.pc)) (boot [5, 32768, 32767, 0]) = some (1, 4) := by decide
theorem test_gt_strict : seen (fun t => (t.regs.x0, t.pc)) (withReg .r0 1 (boot [5, 32768, 3, 3])) = some (0, 4) := by decide

/-! ## jmp, jt, jf -/

/-- V36, V38. -/
theorem test_jmp_register : seen (fun t => t.pc) (withReg .r0 1234 (boot [6, 32768])) = some 1234 := by decide
theorem test_jmp_top : seen (fun t => t.pc) (boot [6, 32767]) = some 32767 := by decide

/-- V41, V40. -/
theorem test_jt_taken : seen (fun t => t.pc) (withReg .r1 40 (boot [7, 32767, 32769])) = some 40 := by decide
theorem test_jt_untaken : seen (fun t => t.pc) (boot [7, 32768, 6]) = some 3 := by decide

/-- V42, V43. -/
theorem test_jf_taken : seen (fun t => t.pc) (boot [8, 0, 9]) = some 9 := by decide
theorem test_jf_untaken : seen (fun t => t.pc) (boot [8, 1, 9]) = some 3 := by decide

/-! ## add, mult, mod, and, or, not -/

/-- V52, V53: the wrap; both reads see the old value. -/
theorem test_add_wraps : seen (fun t => (t.regs.x0, t.pc)) (boot [9, 32768, 32767, 32767]) = some (32766, 4) := by decide
theorem test_add_same_register :
    seen (fun t => t.regs.x0) (withReg .r0 20000 (boot [9, 32768, 32768, 32768])) = some 7232 := by decide

/-- V56, V58. -/
theorem test_mult_wraps : seen (fun t => (t.regs.x0, t.pc)) (boot [10, 32768, 32767, 32767]) = some (1, 4) := by decide
theorem test_mult_174 : seen (fun t => t.regs.x0) (boot [10, 32768, 181, 182]) = some 174 := by decide

/-- V64, V67. -/
theorem test_mod : seen (fun t => (t.regs.x0, t.pc)) (boot [11, 32768, 32767, 32766]) = some (1, 4) := by decide
theorem test_mod_zero_register :
    faultOf (boot [11, 32768, 7, 32769]) = some ⟨.divisionByZero, 0, some 11, [32768, 7, 32769], none⟩ := by decide

/-- V68, V70. -/
theorem test_and : seen (fun t => (t.regs.x0, t.pc)) (boot [12, 32768, 21845, 13107]) = some (4369, 4) := by decide
theorem test_and_disjoint : seen (fun t => t.regs.x0) (withReg .r0 9 (boot [12, 32768, 21845, 10922])) = some 0 := by decide

/-- V71, V72. -/
theorem test_or : seen (fun t => (t.regs.x0, t.pc)) (boot [13, 32768, 21845, 13107]) = some (30583, 4) := by decide
theorem test_or_full : seen (fun t => t.regs.x0) (boot [13, 32768, 21845, 10922]) = some 32767 := by decide

/-- V74, V77. -/
theorem test_not_zero : seen (fun t => (t.regs.x0, t.pc)) (boot [14, 32768, 0]) = some (32767, 3) := by decide
theorem test_not_same_register : seen (fun t => t.regs.x0) (withReg .r0 1 (boot [14, 32768, 32768])) = some 32766 := by decide

/-! ## rmem, wmem -/

/-- V81, V84. -/
theorem test_rmem_register_address :
    seen (fun t => (t.regs.x0, t.pc)) (withReg .r1 6 (boot [15, 32768, 32769, 0, 0, 0, 1234])) = some (1234, 3) := by decide
theorem test_rmem_raw_word_faults :
    faultOf (boot [15, 32768, 1]) = some ⟨.outOfRangeValue, 0, some 15, [32768, 1], some 32768⟩ := by decide

/-- V87 (the asymmetry of R99), V89 (code is overwritten). -/
theorem test_wmem_register_is_address :
    seen (fun t => (t.memRead 100, t.regs.x0, t.pc)) (withReg .r0 100 (boot [16, 32768, 5])) = some (5, 100, 3) := by decide
theorem test_wmem_overwrites_code : seen (fun t => (t.memRead 3, t.pc)) (boot [16, 3, 21, 99]) = some (21, 3) := by decide

/-! ## call, ret -/

/-- V96, V98. -/
theorem test_call : seen (fun t => (t.stack, t.pc)) { withReg .r0 300 (boot [17, 32768]) with stack := [7] } =
    some ([2, 7], 300) := by decide
theorem test_call_at_top : seen (fun t => (t.stack, t.pc)) (bootAt 32766 [17, 5]) = some ([32768], 5) := by decide

/-- V99, V100. -/
theorem test_ret : seen (fun t => (t.stack, t.pc, t.halted)) { boot [18] with stack := [100, 4] } =
    some ([4], 100, false) := by decide
theorem test_ret_empty_halts : seen (fun t => (t.stack, t.pc, t.halted, t.fault)) (boot [18]) =
    some ([], 1, true, none) := by decide

/-! ## out, in -/

/-- V106, V109a. -/
theorem test_out_flush : seen (fun t => (t.outacc, t.consoleLog, t.pc)) { boot [19, 10] with outacc := [72, 105] } =
    some ([], [[72, 105]], 2) := by decide
theorem test_out_append : seen (fun t => (t.outacc, t.consoleLog)) (boot [19, 32767]) = some ([32767], []) := by decide

/-- X7 first step and V111; V114: the taken character stays taken. -/
theorem test_in_reads_line :
    seen (fun t => (t.regs.x0, t.inq, t.pc)) { boot [20, 32768] with consoleScript := [some [111, 107]] } =
      some (111, [107, 10], 2) ∧
    seen (fun t => (t.regs.x0, t.inq, t.pc)) { boot [20, 32768] with consoleScript := [some []] } =
      some (10, [], 2) := by decide
theorem test_in_big_code :
    seen (fun t => (t.fault, t.regs.x0, t.pc, t.inq)) { boot [20, 32768] with consoleScript := [some [44032, 98]] } =
      some (some ⟨.outOfRangeValue, 0, some 20, [32768], some 44032⟩, 0, 0, [98, 10]) := by decide

/-! ## The host interface -/

/-- R141: a second load is refused; R130: the end states. -/
theorem test_load_and_status :
    (match State.reset.load [21] with | .next t => t.mem | _ => []) = [(0, 21)] ∧
    (match (boot [21]).load [0] with | .refused r => some r | _ => none) = some .loadNotReset ∧
    (boot []).status = .canStep ∧ ({ boot [] with halted := true } : State).status = .normalEnd := by decide

/-! ## Memory keeps one form -/

/-- Writing back what an unlisted cell reads as removes the entry. -/
theorem test_memory_canonical :
    Memory.write [(3, 5)] 3 0 = [] ∧ Memory.write [(3, 5)] 1 7 = [(1, 7), (3, 5)] ∧
    Memory.wf [(3, 5), (3, 6)] = false ∧ Memory.wf [(3, 0)] = false ∧ Memory.wf [(32768, 1)] = false := by decide

/-! # Witnesses: each hypothesis of each statement is met by something -/

theorem inv_of_mem {ws : List Word} (h : (boot ws).mem.wf = true) : (boot ws).Inv :=
  ⟨h, Nat.zero_le _, (by intro e he; cases he), (by intro n hn; cases hn), (by intro hh; cases hh)⟩

theorem witness_LoadPlacesImageOrIsRefused :
    (State.reset.hostReset = State.reset ∧ (List.replicate 32768 (7 : Word)).length ≤ 32768) ∧
    (State.reset.hostReset = State.reset ∧ 32768 < (List.replicate 32769 (7 : Word)).length) ∧
    (boot [21]).hostReset ≠ boot [21] :=
  ⟨⟨rfl, by rw [List.length_replicate]⟩, ⟨rfl, by rw [List.length_replicate]; decide⟩, by decide⟩

theorem witness_ImageBytesGiveLittleEndianWords : 2 * 1 + 1 < [(0x13 : BitVec 8), 0, 0x48, 0, 7].length := by decide

theorem witness_StepKeepsInvariant : (boot [21]).Inv ∧ step (boot [21]) = .next { boot [21] with pc := 1 } :=
  ⟨inv_of_mem rfl, rfl⟩

theorem witness_ReachableStatesMeetInvariant : Reachable (boot [21, 0]) := .load [21, 0] .reset rfl

theorem witness_ChangedCellsHoldValues :
    (boot [1, 100, 5]).mem.wf = true ∧
    ∃ t, step (boot [1, 100, 5]) = .next t ∧ t.memRead 100 ≠ (boot [1, 100, 5]).memRead 100 :=
  ⟨rfl, _, rfl, by decide⟩

theorem witness_WordClassesAreRangesAndBits : isLit 32767 ∧ isReg 32768 ∧ isReg 32775 ∧ isBad 32776 ∧ isBad 65535 := by
  decide

theorem witness_EncodedInstrDecodesBack : (Instr.add 32775 32767 0).wellFormed = true := by decide

theorem witness_IndirectOpcodeDecodesByRegister :
    (Instr.set 32769 9).wellFormed = true ∧
    ((fun _ => 1 : Reg → Value) .r0).toNat = (Instr.set 32769 9).opcode.toNat := by decide

theorem witness_DecodedInstrIsWellFormed : decode (fun _ => 0) [9, 1, 2, 3, 4] = .ok (.add 1 2 3, [4]) := rfl

theorem witness_StepRunsDecodedInstr :
    (boot [21]).stopped = false ∧ Instr.noop.wellFormed = true ∧
    decode (boot [21]).regs.get ((boot [21]).fetchWords 4) = .ok (.noop, [0, 0, 0]) := ⟨rfl, rfl, rfl⟩

/-- At the top of memory (pc 32764), and for an indirect opcode word. -/
theorem witness_StepRunsInstrInCells :
    (let s := bootAt 32764 [9, 32768, 2, 3]
     s.stopped = false ∧ (Instr.add 32768 2 3).wellFormed = true ∧ s.pc.toNat + 1 + 3 ≤ 32768 ∧
      resolveOpcode s.regs.get (s.memRead s.pc) = 9 ∧ s.operandCells 3 = [32768, 2, 3]) ∧
    (let s := withReg .r0 1 (boot [32768, 32769, 9])
     resolveOpcode s.regs.get (s.memRead s.pc) = 1 ∧ s.operandCells 2 = [32769, 9]) := by decide

theorem witness_PlacedTableWordRunsNext :
    (bootAt 32764 []).stopped = false ∧ (bootAt 32764 []).mem.wf = true ∧ (bootAt 32764 []).pc.toNat ≤ 32764 ∧
    decode (bootAt 32764 []).regs.get (tableWords 16 9) = .ok (.add 0 0 0, []) := ⟨rfl, rfl, by decide, rfl⟩

theorem witness_StoppedStepDoesNothing :
    ({ boot [21] with halted := true } : State).halted = true ∧
    ({ boot [21] with fault := some ⟨.invalidOpcode, 0, some 99, [], some 99⟩ } : State).fault ≠ none := by decide

theorem witness_RunLoopEndsWhereStepsEnd : ({ boot [21] with halted := true } : State).halted = true := rfl

theorem witness_FetchAboveTopFaults : (bootAt 32768 []).stopped = false ∧ 32767 < (bootAt 32768 []).pc.toNat := by decide

theorem witness_InvalidOpcodeFaults :
    (boot [22]).stopped = false ∧ (boot [22]).pc.toNat ≤ 32767 ∧
    ((boot [22]).memRead 0 = 22 ∧ ¬ isReg (22 : Word) ∧ 22 ≤ (22 : Word).toNat) ∧
    ((boot [32776]).memRead 0 = 32776 ∧ ¬ isReg (32776 : Word) ∧ 22 ≤ (32776 : Word).toNat) ∧
    ((withReg .r1 22 (boot [32769])).memRead 0 = regWord .r1 ∧
      22 ≤ ((withReg .r1 22 (boot [32769])).regs.get .r1).toNat) := by decide

/-- The hypotheses of `OperandFetchFaults op n`, the first clause of each instruction with operands: for every such
opcode a machine whose first operand word has no cell, and one whose first operand word is illegal. -/
theorem witness_OperandFetchFaults (op : Word) (h0 : op ≠ 0) (h : op.toNat ≤ 21) :
    ((bootAt 32767 [op]).stopped = false ∧ (bootAt 32767 [op]).pc.toNat ≤ 32767 ∧
      resolveOpcode (bootAt 32767 [op]).regs.get ((bootAt 32767 [op]).memRead 32767) = op ∧
      (bootAt 32767 [op]).pc.toNat + 1 + 0 = 32768) ∧
    ((boot [op, 32776]).stopped = false ∧ (boot [op, 32776]).pc.toNat ≤ 32767 ∧
      resolveOpcode (boot [op, 32776]).regs.get ((boot [op, 32776]).memRead 0) = op ∧
      (boot [op, 32776]).pc.toNat + 1 + 0 < 32768 ∧ isBad ((boot [op, 32776]).operandCell 0)) := by
  have hr : ¬ isReg op := by omega
  have m1 : (bootAt 32767 [op]).mem = [(32767, op)] := if_neg h0
  have m2 : (boot [op, 32776]).mem = [(0, op), (1, 32776)] := by
    change Memory.write (if op = 0 then [] else [(0, op)]) 1 32776 = _
    rw [if_neg h0]; rfl
  have p1 : (bootAt 32767 [op]).pc.toNat ≤ 32767 := Nat.le_of_ble_eq_true rfl
  have p2 : (boot [op, 32776]).pc.toNat ≤ 32767 := Nat.le_of_ble_eq_true rfl
  have p3 : (boot [op, 32776]).pc.toNat + 1 + 0 < 32768 := Nat.le_of_ble_eq_true rfl
  refine ⟨⟨rfl, p1, ?_, rfl⟩, rfl, p2, ?_, p3, ?_⟩
  · rw [State.memRead, m1, resolveOpcode_of_not_isReg] <;> exact (by first | rfl | exact hr)
  · rw [State.memRead, m2, resolveOpcode_of_not_isReg] <;> exact (by first | rfl | exact hr)
  · have c : (boot [op, 32776]).operandCell 0 = 32776 := by
      have q : (boot [op, 32776]).pc = 0 := rfl
      rw [State.operandCell, State.memRead, m2, q]
      simp [Memory.read, addrMask]
    rw [c]; decide

/-- The hypotheses of OperandFetchFaults for a later operand: b beyond the top, and b illegal. -/
theorem witness_OperandFaultsComeInOrder :
    operandCount (9 : Word).toNat = some 3 ∧
    (let s := bootAt 32766 [9, 32775]
     s.stopped = false ∧ s.pc.toNat ≤ 32767 ∧ resolveOpcode s.regs.get (s.memRead s.pc) = 9 ∧
      s.pc.toNat + 1 + 1 = 32768 ∧ ∀ j < 1, legalWord (s.operandCell j) = true) ∧
    (let s := boot [9, 0, 32776, 0]
     s.stopped = false ∧ s.pc.toNat ≤ 32767 ∧ resolveOpcode s.regs.get (s.memRead s.pc) = 9 ∧
      s.pc.toNat + 1 + 1 < 32768 ∧ (∀ j < 1, legalWord (s.operandCell j) = true) ∧ isBad (s.operandCell 1)) := by decide

theorem witness_IllFormedInstrFaultsAtFirstIllegalWord :
    1 < (Instr.set 32775 32776).operands.length ∧
    ((Instr.set 32775 32776).operands.take 1).all legalWord = true ∧ isBad (Instr.set 32775 32776).operands[1] := by decide

theorem witness_FaultDiscardsTheStep :
    (boot [99]).fault = none ∧
    step (boot [99]) = .next { boot [99] with fault := some ⟨.invalidOpcode, 0, some 99, [], some 99⟩ } := ⟨rfl, rfl⟩

/-- Each of the three ways the console's answer cannot differ or does not matter. -/
theorem witness_StepDependsOnCoreAndAnswer :
    (boot [21]).core = ({ boot [21] with consoleLog := [[72]] } : State).core ∧
    ({ boot [20, 32768] with inq := [10] } : State).inq ≠ [] ∧
    ({ boot [20, 32768] with consoleScript := [some [1]] } : State).nextAnswer =
      ({ boot [20, 32768] with consoleScript := [some [1], none] } : State).nextAnswer ∧
    (∀ a, (boot [21]).fetchDecode ≠ .run (.inp a)) ∧
    step (boot [21]) = .next { boot [21] with pc := 1 } :=
  ⟨rfl, by decide, rfl, fun _ h => (nomatch h : False), rfl⟩

theorem witness_RegistersFrame :
    exec (.set 32768 4) (boot []) = .next { boot [] with regs := (boot []).regs.set .r0 4, pc := 3 } ∧
    (Instr.set 32768 4).slot ≠ some (regWord .r1) := ⟨rfl, by decide⟩

theorem witness_MemoryFrame :
    exec (.wmem 100 5) (boot []) = .next { boot [] with mem := [(100, 5)], pc := 3 } ∧ isLit 101 ∧
    storeTarget (.wmem 100 5) (boot []) ≠ some 101 := ⟨rfl, by decide, by decide⟩

theorem witness_StackFrame : exec (.push 5) (boot []) = .next { boot [] with stack := [5], pc := 2 } := rfl

theorem witness_HaltedFlagFrame : exec .halt (boot []) = .next { boot [] with halted := true, pc := 1 } := rfl

theorem witness_FaultLatchFrame :
    exec (.pop 0) (boot []) = .next { boot [] with fault := some ⟨.stackUnderflow, 0, some 3, [0], none⟩ } := rfl

theorem witness_ConsoleFrame : exec (.out 10) (boot []) = .next { boot [] with consoleLog := [[]], pc := 2 } := rfl

theorem witness_PcEndsBehindTheWords :
    (boot []).fault = none ∧ exec .noop (boot []) = .next { boot [] with pc := 1 } ∧
    ({ boot [] with pc := 1 } : State).fault = none ∧ Instr.noop ≠ .ret := ⟨rfl, rfl, rfl, by decide⟩

theorem witness_OperandModesResolve :
    isLit 32767 ∧ (32775 : Word) = regWord .r7 ∧ (32775 : Word).toNat ≤ 32775 ∧ isBad 32776 := by decide

theorem witness_StoreContractHolds :
    32767 < 32768 ∧ (32767 ≤ 32767 ∧ (32775 : Word).toNat ≤ 32775 ∧ (boot []).mem.wf = true) ∧
    (32767 ≤ 32767 ∧ isBad 32776) := by decide

theorem witness_MemoryReadsBackWrites :
    (boot [1]).mem.wf = true ∧ (0 : Word).toNat % 32768 = (32768 : Word).toNat % 32768 ∧
    (32767 : Word).toNat % 32768 ≠ (0 : Word).toNat % 32768 := by decide

theorem witness_CanonicalMemoriesAreDeterminedByReads :
    Memory.wf (Memory.write [] 3 7) = true ∧ Memory.wf [(3, 7)] = true ∧
    ∀ a, a < 32768 → Memory.read (Memory.write [] 3 7) a = Memory.read [(3, 7)] a := ⟨rfl, rfl, fun _ _ => rfl⟩

theorem witness_StoredWordIsFetchedNext :
    (Instr.wmem 32767 21).wellFormed = true ∧ (boot []).mem.wf = true ∧
    ({ boot [] with mem := [(32767, 21)], pc := 32767 } : State).pc.toNat = (boot []).operandValue 32767 := by decide

/-- PushAddsItsValue, CallPushesAndGoes and CallThenRetReturnsBehindTheCall: a last free entry, and none. -/
theorem witness_stack_capacity :
    (Instr.call 4).wellFormed = true ∧ (Instr.push 32775).wellFormed = true ∧
    (∀ n, ({ boot [] with stack := [1], stackCapacity := some 2 } : State).stackCapacity = some n → 1 < n) ∧
    (({ boot [] with stack := [2, 1], stackCapacity := some 2 } : State).stackCapacity = some 2 ∧ 2 ≤ 2) :=
  ⟨by decide, by decide, fun n h => by injection h with h; omega, rfl, le_refl _⟩

theorem witness_ArithmeticLaws : (1 : Value).toNat ≠ 0 := by decide

/-- SetStoresItsValue, EqStoresEquality, GtStoresUnsignedGreater, AddStoresTheSum, MultStoresTheProduct,
AndStoresTheBitwiseAnd, OrStoresTheBitwiseOr, NotStoresTheComplement and WmemStoresAtTheValueOfA: legal operand words at
their bounds, memory in canonical form. -/
theorem witness_storing_instructions :
    (boot [9, 32775, 32767, 0]).mem.wf = true ∧
    [Instr.set 32775 32767, .eq 0 32775 32767, .gt 0 32775 32767, .add 0 32775 32767, .mult 0 32775 32767,
      .and 0 32775 32767, .or 0 32775 32767, .not 32767 32775, .wmem 32775 32767].all Instr.wellFormed = true := by decide

/-- JmpGoesToItsValue, JtJumpsIfNonzero, JfJumpsIfZero. -/
theorem witness_jumps : [Instr.jmp 32775, .jt 32775 32767, .jf 0 32775].all Instr.wellFormed = true := by decide

/-- A divisor that is 1, and one that is 0. -/
theorem witness_ModStoresTheRemainder :
    (Instr.mod 0 32775 1).wellFormed = true ∧ (boot []).mem.wf = true ∧ (boot []).operandValue 1 ≠ 0 ∧
    (Instr.mod 0 7 32769).wellFormed = true ∧ (boot []).operandValue 32769 = 0 := by decide

/-- A top entry at the bound, an empty stack, a top entry above the bound. -/
theorem witness_PopStoresTheTop :
    (Instr.pop 32775).wellFormed = true ∧ (boot []).mem.wf = true ∧ (boot []).stack = [] ∧
    ({ boot [] with stack := [32767, 1] } : State).stack = 32767 :: [1] ∧ (32767 : Word).toNat ≤ 32767 ∧
    ({ boot [] with stack := [32768] } : State).stack = 32768 :: [] ∧ 32767 < (32768 : Word).toNat := by decide

/-- A cell at the bound, and one above it. -/
theorem witness_RmemStoresTheCell :
    (Instr.rmem 32768 0).wellFormed = true ∧ (boot [32767]).mem.wf = true ∧
    ((boot [32767]).memRead (BitVec.ofNat 16 ((boot [32767]).operandValue 0)) = 32767 ∧ (32767 : Word).toNat ≤ 32767) ∧
    ((boot [32768]).memRead (BitVec.ofNat 16 ((boot [32768]).operandValue 0)) = 32768 ∧
      32767 < (32768 : Word).toNat) := by decide

theorem witness_HaltSetsHalted : exec .halt (boot [0]) = .next { boot [0] with halted := true, pc := 1 } := rfl

theorem witness_NoopAdvancesOnly : (bootAt 32767 [21]).stopped = false ∧ (bootAt 32767 [21]).pc = 32767 := ⟨rfl, rfl⟩

theorem witness_RetPopsThePcOrHalts :
    (boot []).stack = [] ∧ ({ boot [] with stack := [32768] } : State).stack = 32768 :: [] ∧
    ({ boot [] with stack := [32768] } : State).stopped = false := ⟨rfl, rfl, rfl⟩

/-- The line-feed, and its neighbour. -/
theorem witness_OutAppendsOrFlushes :
    (Instr.out 10).wellFormed = true ∧ (boot []).operandValue 10 = 10 ∧
    (Instr.out 11).wellFormed = true ∧ (boot []).operandValue 11 ≠ 10 := by decide

/-- Each side of the equivalence: a silent console, and one that answers. -/
theorem witness_OnlyASilentConsoleStops :
    exec (.inp 32768) { boot [] with consoleScript := [none] } = .fault .consoleSilent ∧
    exec (.inp 32768) { boot [] with consoleScript := [some []] } =
      .next { boot [] with regs := (boot []).regs.set .r0 10, consoleReads := 1, pc := 2 } := ⟨rfl, rfl⟩

/-- A queue with a character that fits and one that does not; an answer of each kind; an empty line. -/
theorem witness_InStoresTheNextCharacter :
    (Instr.inp 32775).wellFormed = true ∧ (boot []).mem.wf = true ∧ (boot []).inq = [] ∧
    ({ boot [] with inq := [32767, 10] } : State).inq = 32767 :: [10] ∧
    ({ boot [] with inq := [32768] } : State).inq = 32768 :: [] ∧
    ({ boot [] with consoleScript := [some [32767]] } : State).nextAnswer = some [32767] ∧
    ({ boot [] with consoleScript := [some [32768]] } : State).nextAnswer = some [32768] ∧
    ({ boot [] with consoleScript := [some []] } : State).nextAnswer = some [] ∧ ([] : List Code) ++ [10] = 10 :: [] := by decide

end Sys2Proof.Tests
end

section
/-! PROOFS. The operand faults of a step (R62 to R64, R71, R123), for every opcode that takes operands. -/

namespace Sys2Proof

/-- The operand words of a well-formed instruction are legal (R54). -/
theorem Instr.legalWord_of_wellFormed {i : Instr} (h : i.wellFormed = true) {w : Word} (hw : w ∈ i.operands) :
    legalWord w = true := List.all_eq_true.1 h w hw

/-- An error in the operand words is the decoder's error (R52, R71). -/
theorem decode_of_takeOperands_error {x : Reg → Value} {w : Word} {ws : List Word} {n : Nat} {e : DecodeError}
    (hn : operandCount (resolveOpcode x w).toNat = some n) (he : takeOperands (resolveOpcode x w) n [] ws = .error e) :
    decode x (w :: ws) = .error e := by
  simp only [decode, hn, he]

end Sys2Proof

namespace Sys2Proof.Machine

/-- A step whose words do not decode takes the fault of the fetch (R60, R128). -/
theorem step_of_decode_error {s : State} (hs : s.stopped = false) {e : DecodeError}
    (he : decode s.regs.get (s.fetchWords 4) = .error e) : step s = .next (s.decodeFault e) := by
  simp [step, State.fetchDecode, hs, he]

/-- A step whose operand cells have an error takes the fault of that error. -/
theorem step_of_takeOperands_error {s : State} (hs : s.stopped = false) (hpc : s.pc.toNat ≤ 32767) {n : Nat}
    {e : DecodeError} (hn : operandCount (resolveOpcode s.regs.get (s.memRead s.pc)).toNat = some n)
    (he : takeOperands (resolveOpcode s.regs.get (s.memRead s.pc)) n []
      (s.operandCells (min 3 (32767 - s.pc.toNat))) = .error e) : step s = .next (s.decodeFault e) :=
  step_of_decode_error hs (by rw [State.fetchWords_four hpc]; exact decode_of_takeOperands_error hn he)

@[simp] theorem State.operandCells_length (s : State) (n : Nat) : (s.operandCells n).length = n := by
  simp [State.operandCells]

theorem State.mem_operandCells {s : State} {n : Nat} {w : Word} :
    w ∈ s.operandCells n ↔ ∃ j < n, s.operandCell j = w := by
  simp [State.operandCells]

theorem State.operandCells_succ (s : State) (k : Nat) :
    s.operandCells (k + 1) = s.operandCells k ++ [s.operandCell k] := by
  simp [State.operandCells, List.range_succ]

/-- The first `m` operand cells, split at cell `k`. -/
theorem State.operandCells_split (s : State) {k m : Nat} (h : k < m) :
    ∃ rest, s.operandCells m = s.operandCells k ++ s.operandCell k :: rest := by
  obtain ⟨d, rfl⟩ : ∃ d, m = k + 1 + d := ⟨m - (k + 1), by omega⟩
  refine ⟨((List.range d).map (k + 1 + ·)).map s.operandCell, ?_⟩
  have hsplit : s.operandCells (k + 1 + d) =
      s.operandCells (k + 1) ++ ((List.range d).map (k + 1 + ·)).map s.operandCell := by
    rw [State.operandCells, List.range_add, List.map_append]; rfl
  rw [hsplit, State.operandCells_succ, List.append_assoc]; rfl

/-- R123, R128 (3): every opcode of the map takes the operand faults in the order of its operand words. -/
theorem operandFetchFaults_of_operandCount {op : Word} {n : Nat} (hn : operandCount op.toNat = some n) :
    OperandFetchFaults op n := by
  intro s k hs hpc hop hk hfit hlegal
  have hn3 := operandCount_le hn
  subst hop
  have hcells : ∀ w ∈ s.operandCells k, legalWord w = true := by
    intro w hw
    obtain ⟨j, hj, rfl⟩ := State.mem_operandCells.1 hw
    exact hlegal j hj
  have hlen : (s.operandCells k).length < n := by simpa using hk
  constructor
  · intro htop
    have hk' : min 3 (32767 - s.pc.toNat) = k := by omega
    have herr := takeOperands_short (resolveOpcode s.regs.get (s.memRead s.pc)) _ [] hlen hcells
    rw [step_of_takeOperands_error hs hpc hn (by rw [hk', herr])]
    simp [State.decodeFault, State.enterFault, htop]
  · intro hlow hbad
    obtain ⟨rest, hrest⟩ := s.operandCells_split (show k < min 3 (32767 - s.pc.toNat) by omega)
    have herr := takeOperands_illegal (resolveOpcode s.regs.get (s.memRead s.pc)) _ [] rest hlen hcells hbad
    rw [step_of_takeOperands_error hs hpc hn (by rw [hrest, herr]), State.operandCells_succ]
    rfl

end Sys2Proof.Machine
end

section
/-! PROOFS. out and in (R103 to R105): what each does with a legal operand word. -/

namespace Sys2Proof.Machine

/-! ## out (R103) -/

theorem exec_out (a : Word) (s : State) : exec (.out a) s = execOut a s := rfl

/-- `out` with a line-feed writes the accumulator as one line and empties it. -/
theorem exec_out_of_lineFeed {s : State} {a : Word} (ha : legalWord a = true) (h : s.operandValue a = lineFeed) :
    exec (.out a) s = .next (((s.writeLine s.outacc).setOutacc []).advance 2) := by
  obtain ⟨v, hv, hval, -⟩ := s.val_of_legal ha
  rw [exec_out, execOut, State.onVal_of_some hv, if_pos (hval.trans h)]

/-- `out` with any other character appends it to the accumulator. -/
theorem exec_out_of_ne_lineFeed {s : State} {a : Word} (ha : legalWord a = true) (h : s.operandValue a ≠ lineFeed) :
    exec (.out a) s = .next ((s.setOutacc (s.outacc ++ [s.operandValue a])).advance 2) := by
  obtain ⟨v, hv, hval, -⟩ := s.val_of_legal ha
  rw [exec_out, execOut, State.onVal_of_some hv, if_neg (hval ▸ h), hval]

/-! ## The console's part of `in` (R104, R105) -/

/-- A console that answers takes the answer off the script, if there is one, and counts it. -/
theorem State.readLine_of_nextAnswer {s : State} {line : List Code} (h : s.nextAnswer = some line) :
    s.readLine = some (line, { s with
      consoleScript := s.consoleScript.tail, consoleReads := s.consoleReads + 1 }) := by
  unfold State.nextAnswer at h
  unfold State.readLine
  cases hscript : s.consoleScript with
  | nil =>
    rw [hscript] at h
    simp only [h, List.tail_nil]
  | cons answer script =>
    rw [hscript] at h
    simp only [h, List.tail_cons]

/-- A queue that holds a character is not refilled. -/
theorem State.refill_of_cons {s : State} {ch : Code} {rest : List Code} (h : s.inq = ch :: rest) :
    s.refill = some s := by
  simp only [State.refill, h]

/-- An empty queue becomes the console's answer and a line-feed. -/
theorem State.refill_of_nextAnswer {s : State} (hq : s.inq = []) {line : List Code} (h : s.nextAnswer = some line) :
    s.refill = some { s with
      inq := line ++ [lineFeed], consoleScript := s.consoleScript.tail, consoleReads := s.consoleReads + 1 } := by
  simp only [State.refill, hq, State.readLine_of_nextAnswer h, State.setInq]

theorem State.takeChar_of_cons {s : State} {ch : Code} {rest : List Code} (h : s.inq = ch :: rest) :
    s.takeChar = (ch, s.setInq rest) := by
  simp only [State.takeChar, h]

/-! ## in (R104) -/

section
variable {s s1 : State} {a : Word} {ch : Code} {rest : List Code}

theorem exec_inp (a : Word) (s : State) : exec (.inp a) s = execIn a s := rfl

/-- `in` takes the front of the (refilled) queue and stores it. -/
theorem exec_inp_eq_store (ha : legalWord a = true) (hr : s.refill = some s1) (hq : s1.inq = ch :: rest) :
    exec (.inp a) s = (s1.setInq rest).store 20 [a] a ch ((s1.setInq rest).advance 2) := by
  rw [exec_inp, execIn, State.onSlot_of_legal s ha]
  simp only [hr, State.takeChar_of_cons hq]

/-- A code that fits is stored into the slot. -/
theorem exec_inp_stores (ha : legalWord a = true) (hr : s.refill = some s1) (hq : s1.inq = ch :: rest)
    (hch : ch ≤ 32767) (hmem : s1.mem.wf = true) :
    ∃ t, exec (.inp a) s = .next t ∧ Stores (s1.setInq rest) t a ch 2 := by
  refine ⟨_, (exec_inp_eq_store ha hr hq).trans (State.store_of_legal _ _ _ _ ha hch), ?_⟩
  have hval : (BitVec.ofNat 15 ch).toNat = ch := (BitVec.toNat_ofNat ..).trans (Nat.mod_eq_of_lt (Nat.lt_succ_of_le hch))
  have hstores := State.put_stores (s := s1.setInq rest) hmem ha (BitVec.ofNat 15 ch) 2
  rwa [hval] at hstores

/-- A code that does not fit raises OutOfRangeValue after the console transaction (R127 b). -/
theorem exec_inp_of_big (ha : legalWord a = true) (hr : s.refill = some s1) (hq : s1.inq = ch :: rest)
    (hch : 32767 < ch) :
    exec (.inp a) s = .next ((s1.setInq rest).enterFault .outOfRangeValue (some 20) [a] (some ch)) :=
  (exec_inp_eq_store ha hr hq).trans (State.store_of_big _ _ _ _ _ hch)

end

/-! ## The obligations -/

/-- Settles O59: the operand faults of any opcode with one operand, and the two cases of R103. -/
theorem outAppendsOrFlushes : Obligations.OutAppendsOrFlushes := by
  refine ⟨operandFetchFaults_of_operandCount rfl, fun a s => ⟨rfl, fun hwf h => ?_, fun hwf h => ?_⟩⟩
  · exact exec_out_of_lineFeed (Instr.legalWord_of_wellFormed hwf (List.mem_singleton_self a)) h
  · exact exec_out_of_ne_lineFeed (Instr.legalWord_of_wellFormed hwf (List.mem_singleton_self a)) h

/-- Settles O60: a filled queue is its own refill, an empty one is refilled by the console's answer; then the front of
the queue is stored, or its code does not fit. -/
theorem inStoresTheNextCharacter : Obligations.InStoresTheNextCharacter := by
  refine ⟨operandFetchFaults_of_operandCount rfl, fun a s => ⟨rfl, ?_, ?_⟩⟩
  · intro hwf ch rest hq
    have ha := Instr.legalWord_of_wellFormed hwf (List.mem_singleton_self a)
    have hr := State.refill_of_cons hq
    exact ⟨exec_inp_stores ha hr hq, exec_inp_of_big ha hr hq⟩
  · intro hwf hempty line ch rest hline hq
    have ha := Instr.legalWord_of_wellFormed hwf (List.mem_singleton_self a)
    have hr := State.refill_of_nextAnswer hempty hline
    exact ⟨exec_inp_stores ha hr hq, exec_inp_of_big ha hr hq⟩

end Sys2Proof.Machine
end

section
/-! PROOFS. What a store and the console's part of `in` leave alone, field by field, and memory as data (R14). -/

namespace Sys2Proof.Machine

/-! ## A store (R65) leaves all but the registers and the memory alone -/

section
variable (s : State) (w : Word) (v : Value)

@[simp] theorem State.put_pc : (s.put w v).pc = s.pc := by rw [State.put_rest]
@[simp] theorem State.put_stack : (s.put w v).stack = s.stack := by rw [State.put_rest]
@[simp] theorem State.put_halted : (s.put w v).halted = s.halted := by rw [State.put_rest]
@[simp] theorem State.put_fault : (s.put w v).fault = s.fault := by rw [State.put_rest]
@[simp] theorem State.put_inq : (s.put w v).inq = s.inq := by rw [State.put_rest]
@[simp] theorem State.put_outacc : (s.put w v).outacc = s.outacc := by rw [State.put_rest]
@[simp] theorem State.put_stackCapacity : (s.put w v).stackCapacity = s.stackCapacity := by rw [State.put_rest]
@[simp] theorem State.put_consoleScript : (s.put w v).consoleScript = s.consoleScript := by rw [State.put_rest]
@[simp] theorem State.put_consoleReads : (s.put w v).consoleReads = s.consoleReads := by rw [State.put_rest]
@[simp] theorem State.put_consoleLog : (s.put w v).consoleLog = s.consoleLog := by rw [State.put_rest]

end

/-- The registers and the memory a store leaves depend on the registers and the memory alone. -/
theorem State.put_congr (s u : State) (hregs : u.regs = s.regs) (hmem : u.mem = s.mem) (w : Word) (v : Value) :
    (u.put w v).regs = (s.put w v).regs ∧ (u.put w v).mem = (s.put w v).mem := by
  unfold State.put
  split <;> simp [hregs, hmem]

/-- A cell that a store has changed holds a value (R20 b). -/
theorem State.isLit_memRead_put_of_ne {s : State} (hs : s.mem.wf = true) {w a : Word} {v : Value}
    (h : (s.put w v).memRead a ≠ s.memRead a) : isLit ((s.put w v).memRead a) := by
  unfold State.put at h ⊢
  split at h
  · exact absurd rfl h
  · rename_i hw
    rw [if_neg hw]
    by_cases haddr : (a &&& addrMask).toNat = (w &&& addrMask).toNat
    · have hread : (s.memWrite w v).memRead a = zext16 v := by
        rw [← State.memRead_memWrite_same hs w v, State.memRead, State.memRead, haddr]
      exact hread ▸ zext16_isLit v
    · exact absurd (State.memRead_memWrite_ne s haddr v) h

/-! ## The console's part of `in` (R104) leaves all but the queue and the console's input side alone -/

section
variable {s s1 : State} (h : s.refill = some s1)
include h

theorem State.taken_regs : s1.takeChar.2.regs = s.regs := by rw [State.taken_rest h]
theorem State.taken_pc : s1.takeChar.2.pc = s.pc := by rw [State.taken_rest h]
theorem State.taken_mem : s1.takeChar.2.mem = s.mem := by rw [State.taken_rest h]
theorem State.taken_stack : s1.takeChar.2.stack = s.stack := by rw [State.taken_rest h]
theorem State.taken_halted : s1.takeChar.2.halted = s.halted := by rw [State.taken_rest h]
theorem State.taken_fault : s1.takeChar.2.fault = s.fault := by rw [State.taken_rest h]
theorem State.taken_outacc : s1.takeChar.2.outacc = s.outacc := by rw [State.taken_rest h]
theorem State.taken_stackCapacity : s1.takeChar.2.stackCapacity = s.stackCapacity := by rw [State.taken_rest h]
theorem State.taken_consoleLog : s1.takeChar.2.consoleLog = s.consoleLog := by rw [State.taken_rest h]

end

/-- Taken or not, a conditional jump sets the pc alone (R88, R89). -/
@[simp] theorem State.ite_setPc_advance (p : Prop) [Decidable p] (s : State) (w : Word) (n : Nat) :
    (if p then s.setPc w else s.advance n) = s.setPc (if p then w else s.pc + BitVec.ofNat 16 n) := by
  split <;> rfl

/-! ## Memory in canonical form as data (R14) -/

theorem Memory.wfFrom_cons {lo a : Nat} {w : Word} {m : Memory} :
    Memory.wfFrom lo ((a, w) :: m) = true ↔
      lo ≤ a ∧ a < 32768 ∧ w ≠ 0 ∧ Memory.wfFrom (a + 1) m = true := by
  simp only [Memory.wfFrom, Bool.and_eq_true, decide_eq_true_eq, and_assoc]

@[simp] theorem Memory.read_cons_same (a : Nat) (w : Word) (m : Memory) : Memory.read ((a, w) :: m) a = w :=
  if_pos rfl

theorem Memory.read_cons_ne {a c : Nat} (h : c ≠ a) (w : Word) (m : Memory) :
    Memory.read ((a, w) :: m) c = Memory.read m c := if_neg h

/-- A listed cell is seen by a read, so a memory that reads like it lists a cell no higher up. -/
theorem Memory.not_wfFrom_above_of_read_eq {lo a : Nat} {w : Word} {m n : Memory}
    (hm : Memory.wfFrom lo ((a, w) :: m) = true)
    (hread : Memory.read ((a, w) :: m) a = Memory.read n a) : ¬ Memory.wfFrom (a + 1) n = true := by
  obtain ⟨-, -, hw, -⟩ := Memory.wfFrom_cons.1 hm
  intro hn
  rw [Memory.read_cons_same, Memory.read_below hn (Nat.lt_succ_self a)] at hread
  exact hw hread

/-- Canonical memories that read alike are equal: their first listed cells agree, hence the rests read alike. -/
theorem Memory.eq_of_read_eq {lo : Nat} {m n : Memory} (hm : Memory.wfFrom lo m = true)
    (hn : Memory.wfFrom lo n = true) (h : ∀ a, a < 32768 → Memory.read m a = Memory.read n a) : m = n := by
  induction m generalizing lo n with
  | nil =>
    cases n with
    | nil => rfl
    | cons q n =>
      obtain ⟨-, hb, -, -⟩ := Memory.wfFrom_cons.1 hn
      exact absurd rfl (Memory.not_wfFrom_above_of_read_eq hn (h q.1 hb).symm)
  | cons p m ih =>
    obtain ⟨a, v⟩ := p
    obtain ⟨-, ha, hv, hm'⟩ := Memory.wfFrom_cons.1 hm
    cases n with
    | nil => exact absurd rfl (Memory.not_wfFrom_above_of_read_eq hm (h a ha))
    | cons q n =>
      obtain ⟨b, w⟩ := q
      obtain ⟨-, hb, hw, hn'⟩ := Memory.wfFrom_cons.1 hn
      have hba : ¬ a + 1 ≤ b := fun hlt =>
        Memory.not_wfFrom_above_of_read_eq hm (h a ha) (Memory.wfFrom_cons.2 ⟨hlt, hb, hw, hn'⟩)
      have hab : ¬ b + 1 ≤ a := fun hlt =>
        Memory.not_wfFrom_above_of_read_eq hn (h b hb).symm (Memory.wfFrom_cons.2 ⟨hlt, ha, hv, hm'⟩)
      obtain rfl : a = b := by omega
      have hvw : v = w := by simpa using h a ha
      have hrest : ∀ c, c < 32768 → Memory.read m c = Memory.read n c := by
        intro c hc
        by_cases hca : c = a
        · rw [Memory.read_below hm' (by omega), Memory.read_below hn' (by omega)]
        · simpa only [Memory.read_cons_ne hca] using h c hc
      rw [hvw, ih hm' hn' hrest]

/-- Settles O35, by induction on the listed cells from the lowest address on. -/
theorem canonicalMemoriesAreDeterminedByReads : Obligations.CanonicalMemoriesAreDeterminedByReads :=
  fun _ _ hm hn h => Memory.eq_of_read_eq hm hn h

end Sys2Proof.Machine
end

section
/-! PROOFS. The frames of the instructions: what an effect does to the registers and the memory, to the pc and to the
stack, and what it leaves alone. -/

namespace Sys2Proof.Machine

/-! ## Registers and memory (R65, R98, R99) -/

theorem legalWord_of_isLit {w : Word} (h : isLit w) : legalWord w = true := (legalWord_iff w).2 (by omega)

theorem storeTarget_of_slot {i : Instr} {w : Word} (h : i.slot = some w) (s : State) : storeTarget i s = some w := by
  unfold storeTarget
  split
  · cases h
  · exact h

/-- A store into a register is one that the slot operand names: wmem stores into cells alone (R99). -/
theorem slot_of_storeTarget_regWord {i : Instr} {s : State} {r : Reg} (h : storeTarget i s = some (regWord r)) :
    i.slot = some (regWord r) := by
  unfold storeTarget at h
  split at h
  · obtain ⟨v, -, hv⟩ := Option.map_eq_some_iff.1 h
    exact absurd hv.symm (regWord_ne_of_isLit (zext16_isLit v) r)
  · exact h

/-- Everything an instruction can do to the registers and the memory: nothing, or one store at its target. -/
theorem Effect.store_cases {s t : State} {i : Instr} (h : Effect s i t) :
    (t.regs = s.regs ∧ t.mem = s.mem) ∨
      ∃ w v, storeTarget i s = some w ∧ legalWord w = true ∧
        t.regs = (s.put w v).regs ∧ t.mem = (s.put w v).mem := by
  cases h with
  | result _ slot v hi hlegal =>
    exact .inr ⟨slot, v, storeTarget_of_slot hi s, hlegal, State.put_congr s (s.advance _) rfl rfl slot v⟩
  | pop a e rest hst hlegal =>
    exact .inr ⟨a, _, rfl, hlegal, State.put_congr s ((s.setStack rest).advance 2) rfl rfl a _⟩
  | wmem a b va vb ha =>
    exact .inr ⟨zext16 va, vb, by simp [storeTarget, ha], legalWord_of_isLit (zext16_isLit va),
      State.put_congr s (s.advance 3) rfl rfl (zext16 va) vb⟩
  | inp a s1 hr hlegal =>
    exact .inr ⟨a, _, rfl, hlegal,
      State.put_congr s (s1.takeChar.2.advance 2) (State.taken_regs hr) (State.taken_mem hr) a _⟩
  | inpFault a s1 c d hr => exact .inl ⟨State.taken_regs hr, State.taken_mem hr⟩
  | _ => exact .inl (by simp)

/-- Settles O25: the one store of an instruction is to a register only if its slot operand names it. -/
theorem registersFrame : Obligations.RegistersFrame := by
  intro i s t r h hslot
  rcases (exec_effect h).store_cases with ⟨hregs, -⟩ | ⟨w, v, htarget, -, hregs, -⟩
  · rw [hregs]
  · have hw : w ≠ regWord r := by
      rintro rfl
      exact hslot (slot_of_storeTarget_regWord htarget)
    rw [hregs, State.put_regs_frame s hw v]

/-- Settles O26: the one store of an instruction is at its target. -/
theorem memoryFrame : Obligations.MemoryFrame := by
  intro i s t a h ha htarget
  rcases (exec_effect h).store_cases with ⟨-, hmem⟩ | ⟨w, v, hw, hlegal, -, hmem⟩
  · exact State.memRead_congr hmem a
  · have hwa : w ≠ a := by
      rintro rfl
      exact htarget hw
    rw [State.memRead_congr hmem, State.put_mem_frame s hlegal ha hwa]

/-! ## The stack (R67, R68) -/

theorem Effect.stackCapacity_eq {s t : State} {i : Instr} (h : Effect s i t) : t.stackCapacity = s.stackCapacity := by
  cases h with
  | inp a s1 hr => simp [State.taken_stackCapacity hr]
  | inpFault a s1 c d hr => simp [State.taken_stackCapacity hr]
  | _ => simp

/-- Everything an instruction can do to the stack. -/
theorem Effect.stack_cases {s t : State} {i : Instr} (h : Effect s i t) :
    t.stack = s.stack ∨
      (∃ a v, i = .push a ∧ s.stackFull = false ∧ t.stack = zext16 v :: s.stack) ∨
      (∃ a, i = .call a ∧ s.stackFull = false ∧ t.stack = (s.pc + BitVec.ofNat 16 2) :: s.stack) ∨
      (((∃ a, i = .pop a) ∨ i = .ret) ∧ ∃ e, s.stack = e :: t.stack) := by
  cases h with
  | push a va ha hf => exact .inr (.inl ⟨a, va, rfl, hf, rfl⟩)
  | call a va ha hf => exact .inr (.inr (.inl ⟨a, rfl, hf, rfl⟩))
  | pop a e rest hst => exact .inr (.inr (.inr ⟨.inl ⟨a, rfl⟩, e, by simpa using hst⟩))
  | ret e rest hst => exact .inr (.inr (.inr ⟨.inr rfl, e, hst⟩))
  | inp a s1 hr => exact .inl (by simp [State.taken_stack hr])
  | inpFault a s1 c d hr => exact .inl (State.taken_stack hr)
  | _ => exact .inl (by simp)

/-- Settles O27, from the four things an instruction can do to the stack. -/
theorem stackFrame : Obligations.StackFrame := by
  intro i s t h
  refine ⟨(exec_effect h).stackCapacity_eq, ?_⟩
  rcases (exec_effect h).stack_cases with hst | ⟨a, v, hi, -, hst⟩ | ⟨a, hi, -, hst⟩ | hpop
  · exact .inl hst
  · exact .inr (.inl ⟨.inl ⟨a, hi⟩, _, hst⟩)
  · exact .inr (.inl ⟨.inr ⟨a, hi⟩, _, hst⟩)
  · exact .inr (.inr hpop)

/-! ## The halted flag and the latch (R16, R17, R127) -/

/-- Settles O28: halt and ret on an empty stack set the flag, every other effect leaves it. -/
theorem haltedFlagFrame : Obligations.HaltedFlagFrame := by
  intro i s t h
  cases exec_effect h with
  | halt => exact .inr ⟨rfl, rfl, .inl rfl⟩
  | retHalt hst => exact .inr ⟨rfl, rfl, .inr ⟨rfl, hst⟩⟩
  | inp a s1 hr => exact .inl (by simp [State.taken_halted hr])
  | inpFault a s1 c d hr => exact .inl (State.taken_halted hr)
  | _ => exact .inl (by simp)

/-- Settles O29: the two faulting effects write the latch, one of them after the console's part of `in`. -/
theorem faultLatchFrame : Obligations.FaultLatchFrame := by
  intro i s t h
  cases exec_effect h with
  | fault _ c ws d hws => exact .inr ⟨⟨c, s.pc, some i.opcode, ws, d⟩, rfl, rfl, hws, rfl, fun _ => rfl⟩
  | inpFault a s1 c d hr =>
    refine .inr ⟨⟨c, s1.takeChar.2.pc, some 20, [a], d⟩, State.taken_pc hr, rfl, List.prefix_rfl, ?_,
      fun hne => absurd rfl (hne a)⟩
    rw [State.taken_rest hr]
    rfl
  | inp a s1 hr => exact .inl (by simp [State.taken_fault hr])
  | _ => exact .inl (by simp)

/-! ## The console (R103 to R105) -/

/-- Settles O30: the effects of `in` and of out, each with its side of the console. -/
theorem consoleFrame : Obligations.ConsoleFrame := by
  intro i s t h
  cases exec_effect h with
  | inp a s1 hr =>
    exact ⟨fun hne => absurd rfl (hne a), fun _ => by simp [State.taken_outacc hr, State.taken_consoleLog hr],
      by simp [State.taken_consoleLog hr]⟩
  | inpFault a s1 c d hr =>
    exact ⟨fun hne => absurd rfl (hne a), fun _ => ⟨State.taken_outacc hr, State.taken_consoleLog hr⟩,
      by simp [State.taken_consoleLog hr]⟩
  | flush a => exact ⟨fun _ => ⟨rfl, rfl, rfl⟩, fun hne => absurd rfl (hne a), List.prefix_append _ _⟩
  | append a => exact ⟨fun _ => ⟨rfl, rfl, rfl⟩, fun hne => absurd rfl (hne a), List.prefix_rfl⟩
  | _ => simp

/-! ## The pc (R13) -/

/-- Everything an instruction can do to the pc: a fault keeps it, a jump or call goes to a value, ret goes to a stack
entry, and whatever else completes leaves it behind the instruction's words. -/
theorem Effect.pc_cases {s t : State} {i : Instr} (h : Effect s i t) :
    (t.fault ≠ none ∧ t.pc = s.pc) ∨
      t.pc = s.pc + BitVec.ofNat 16 (1 + i.operands.length) ∨
      (((∃ a, i = .jmp a) ∨ (∃ a b, i = .jt a b) ∨ (∃ a b, i = .jf a b) ∨ ∃ a, i = .call a) ∧ isLit t.pc) ∨
      (i = .ret ∧ t.pc ∈ s.stack) := by
  cases h with
  | fault _ c ws d => exact .inl ⟨by simp, rfl⟩
  | inpFault a s1 c d hr => exact .inl ⟨by simp, State.taken_pc hr⟩
  | jmp a va => exact .inr (.inr (.inl ⟨.inl ⟨a, rfl⟩, zext16_isLit va⟩))
  | jt a b va vb =>
    split
    · exact .inr (.inr (.inl ⟨.inr (.inl ⟨a, b, rfl⟩), zext16_isLit vb⟩))
    · exact .inr (.inl rfl)
  | jf a b va vb =>
    split
    · exact .inr (.inr (.inl ⟨.inr (.inr (.inl ⟨a, b, rfl⟩)), zext16_isLit vb⟩))
    · exact .inr (.inl rfl)
  | call a va => exact .inr (.inr (.inl ⟨.inr (.inr (.inr ⟨a, rfl⟩)), zext16_isLit va⟩))
  | ret e rest hst => exact .inr (.inr (.inr ⟨rfl, by simp [hst]⟩))
  | inp a s1 hr => exact .inr (.inl (by simp [State.taken_pc hr, Instr.operands]))
  | _ => exact .inr (.inl (by simp [Instr.operands]))

/-- Settles O31: of what an instruction can do to the pc, only one is left. -/
theorem pcEndsBehindTheWords : Obligations.PcEndsBehindTheWords := by
  intro i s t _ h hfault hjmp hjt hjf hcall hret
  rcases (exec_effect h).pc_cases with ⟨hf, -⟩ | hpc | ⟨hi, -⟩ | ⟨hi, -⟩
  · exact absurd hfault hf
  · exact hpc
  · rcases hi with ⟨a, hi⟩ | ⟨a, b, hi⟩ | ⟨a, b, hi⟩ | ⟨a, hi⟩
    · exact absurd hi (hjmp a)
    · exact absurd hi (hjt a b)
    · exact absurd hi (hjf a b)
    · exact absurd hi (hcall a)
  · exact absurd hi hret

end Sys2Proof.Machine
end

section
/-! PROOFS. The invariant (R13, R14, R20, R21, R67, R130): it holds after reset, every step keeps it, and so does load;
and what a step can have written into a cell. -/

namespace Sys2Proof

/-- What decodes was read from at least its own words (R46). -/
theorem operands_length_lt_of_decode {x : Reg → Value} {ws rest : List Word} {i : Instr}
    (h : decode x ws = .ok (i, rest)) : i.operands.length < ws.length := by
  unfold decode at h
  split at h
  · cases h
  split at h
  · cases h
  split at h
  · cases h
  rename_i htake
  split at h
  · cases h
  rename_i hassemble
  injection h with h
  injection h with hi hrest
  obtain ⟨l, -, -, hws, hops⟩ := takeOperands_inv htake
  have hoperands := (assemble_inv hassemble).2
  rw [← hi, hoperands, hops, hws]
  simp

end Sys2Proof

namespace Sys2Proof.Machine

/-- The words of an instruction a step runs lie in memory (R62). -/
theorem State.operands_fit_of_decode {s : State} (hpc : s.pc.toNat ≤ 32768) {i : Instr} {rest : List Word}
    (h : decode s.regs.get (s.fetchWords 4) = .ok (i, rest)) : s.pc.toNat + 1 + i.operands.length ≤ 32768 := by
  have hlt := operands_length_lt_of_decode h
  rw [State.fetchWords_eq 4 s hpc, List.length_map, List.length_range] at hlt
  omega

/-- The pc moved on within the cells does not wrap. -/
theorem toNat_add_ofNat_of_le {w : Word} {n : Nat} (h : w.toNat + n ≤ 32768) :
    (w + BitVec.ofNat 16 n).toNat = w.toNat + n := by
  rw [BitVec.toNat_add, BitVec.toNat_ofNat]; omega

/-! ## Each part of the invariant, over one instruction -/

section
variable {s t : State} {i : Instr}

/-- Memory stays in canonical form (R14). -/
theorem Effect.mem_wf (h : Effect s i t) (hs : s.mem.wf = true) : t.mem.wf = true := by
  rcases h.store_cases with ⟨-, hmem⟩ | ⟨w, v, -, -, -, hmem⟩
  · rwa [hmem]
  · rw [hmem]; exact State.put_mem_wf hs w v

/-- The pc stays in [0, 32768] (R21 d). -/
theorem Effect.pc_le (h : Effect s i t) (hs : s.Inv) (hfit : s.pc.toNat + 1 + i.operands.length ≤ 32768) :
    t.pc.toNat ≤ 32768 := by
  rcases h.pc_cases with ⟨-, hpc⟩ | hpc | ⟨-, hlit⟩ | ⟨-, hmem⟩
  · rw [hpc]; exact hs.pc
  · rw [hpc, toNat_add_ofNat_of_le (by omega)]; omega
  · omega
  · exact hs.entries _ hmem

/-- Every stack entry stays in [0, 32768] (R21 c). -/
theorem Effect.entries_le (h : Effect s i t) (hs : s.Inv) (hfit : s.pc.toNat + 1 + i.operands.length ≤ 32768) :
    ∀ e ∈ t.stack, e.toNat ≤ 32768 := by
  rcases h.stack_cases with hst | ⟨a, v, -, -, hst⟩ | ⟨a, rfl, -, hst⟩ | ⟨-, e, hst⟩
  · rw [hst]; exact hs.entries
  · rw [hst, List.forall_mem_cons]
    have := zext16_isLit v
    exact ⟨by omega, hs.entries⟩
  · rw [hst, List.forall_mem_cons]
    have hroom : s.pc.toNat + 2 ≤ 32768 := hfit
    exact ⟨by rw [toNat_add_ofNat_of_le hroom]; exact hroom, hs.entries⟩
  · have hall := hs.entries
    rw [hst, List.forall_mem_cons] at hall
    exact hall.2

theorem State.length_lt_of_not_stackFull (h : s.stackFull = false) {n : Nat} (hn : s.stackCapacity = some n) :
    s.stack.length < n := by
  simpa [State.stackFull, hn] using h

/-- The stack stays within its capacity (R67). -/
theorem Effect.length_le (h : Effect s i t) (hs : s.Inv) :
    ∀ n, t.stackCapacity = some n → t.stack.length ≤ n := by
  intro n hn
  rw [h.stackCapacity_eq] at hn
  have hle := hs.capacity n hn
  rcases h.stack_cases with hst | ⟨a, v, -, hfull, hst⟩ | ⟨a, -, hfull, hst⟩ | ⟨-, e, hst⟩
  · rwa [hst]
  · rw [hst]; exact State.length_lt_of_not_stackFull hfull hn
  · rw [hst]; exact State.length_lt_of_not_stackFull hfull hn
  · rw [hst, List.length_cons] at hle; omega

/-- A machine that can step does not end both halted and faulted (R130). -/
theorem fault_eq_none_of_exec_halted (h : exec i s = .next t) (hrun : s.stopped = false) (hhalted : t.halted = true) :
    t.fault = none := by
  obtain ⟨hs, hf⟩ : s.halted = false ∧ s.fault = none := by simpa [State.stopped] using hrun
  rcases haltedFlagFrame i s t h with heq | ⟨-, hfault, -⟩
  · simp [heq, hs] at hhalted
  · rw [hfault, hf]

end

/-! ## Reset, step and load -/

/-- Settles O4: memory and stack are empty, the pc is 0, and no fault is latched. -/
theorem resetMeetsInvariant : Obligations.ResetMeetsInvariant where
  memory := State.reset_mem_wf
  pc := Nat.zero_le _
  entries := List.forall_mem_nil _
  capacity := fun _ h => nomatch h
  one_end := fun _ => rfl

/-- A fault of the fetch keeps the invariant, the machine having been able to step. -/
theorem State.Inv.decodeFault {s : State} (hs : s.Inv) (hrun : s.stopped = false) (e : DecodeError) :
    (s.decodeFault e).Inv := by
  obtain ⟨c, o, ws, d, heq⟩ := s.decodeFault_eq e
  have hhalted : s.halted = false := (Bool.or_eq_false_iff.1 hrun).1
  rw [heq]
  exact ⟨hs.memory, hs.pc, hs.entries, hs.capacity, fun h => by simp [hhalted] at h⟩

/-- Settles O5: a stopped machine stays, a fault of the fetch writes the latch alone, and each part of the invariant is
kept by every instruction whose words lie in memory. -/
theorem stepKeepsInvariant : Obligations.StepKeepsInvariant := by
  intro s t hs h
  rcases step_cases h with ⟨-, rfl⟩ | ⟨hrun, e, -, rfl⟩ | ⟨hrun, i, rest, hdecode, hexec⟩
  · exact hs
  · exact hs.decodeFault hrun e
  · have heffect := exec_effect hexec
    have hfit := State.operands_fit_of_decode hs.pc hdecode
    exact {
      memory := heffect.mem_wf hs.memory
      pc := heffect.pc_le hs hfit
      entries := heffect.entries_le hs hfit
      capacity := heffect.length_le hs
      one_end := fault_eq_none_of_exec_halted hexec hrun }

/-- An accepted image fits into memory and changes memory alone (R141). -/
theorem State.load_cases {s t : State} {ws : List Word} (h : s.load ws = .next t) :
    ws.length ≤ Config.memWords ∧ t = { s with mem := s.mem.place 0 ws } := by
  unfold State.load at h
  split_ifs at h with hreset hlong
  injection h with h
  exact ⟨Nat.le_of_not_lt hlong, h.symm⟩

theorem State.Inv.load {s t : State} (hs : s.Inv) {ws : List Word} (h : s.load ws = .next t) : t.Inv := by
  obtain ⟨hlen, rfl⟩ := State.load_cases h
  exact { hs with memory := Memory.place_wf hs.memory (by omega) }

/-- Settles O6, by induction on the run. -/
theorem reachableStatesMeetInvariant : Obligations.ReachableStatesMeetInvariant := by
  intro s h
  induction h with
  | reset => exact resetMeetsInvariant
  | load ws _ hload ih => exact ih.load hload
  | step _ hstep ih => exact stepKeepsInvariant _ _ ih hstep

/-- Settles O7: of the ways a step can end only a store changes a cell, and it writes a value. -/
theorem changedCellsHoldValues : Obligations.ChangedCellsHoldValues := by
  intro s t a hwf h hne
  rcases step_cases h with ⟨-, rfl⟩ | ⟨-, e, -, rfl⟩ | ⟨-, i, rest, -, hexec⟩
  · exact absurd rfl hne
  · obtain ⟨c, o, ws, d, heq⟩ := s.decodeFault_eq e
    exact absurd (State.memRead_congr (by simp [heq]) a) hne
  · rcases (exec_effect hexec).store_cases with ⟨-, hmem⟩ | ⟨w, v, -, -, -, hmem⟩
    · exact absurd (State.memRead_congr hmem a) hne
    · rw [State.memRead_congr hmem] at hne ⊢
      exact State.isLit_memRead_put_of_ne hwf hne

end Sys2Proof.Machine
end

section
/-! PROOFS. Memory through the state's own accessors: the address modulo 32768 (R31 to R33), and a wmem that writes the
cell a later fetch reads (R43, R98, R147). -/

namespace Sys2Proof.Machine

/-! ## The address counts modulo 32768 (R33) -/

theorem and_addrMask_toNat (a : Word) : (a &&& addrMask).toNat = a.toNat % 32768 := by
  have hmask : addrMask.toNat = 2 ^ 15 - 1 := rfl
  rw [BitVec.toNat_and, hmask, Nat.and_two_pow_sub_one_eq_mod]

/-- A read sees its address modulo 32768. -/
theorem State.memRead_eq_of_mod_eq (s : State) {a c : Word} (h : c.toNat % 32768 = a.toNat % 32768) :
    s.memRead c = s.memRead a := by
  rw [State.memRead, State.memRead, and_addrMask_toNat, and_addrMask_toNat, h]

/-- Settles O34: the mask takes an address modulo 32768, so an alias of the written address reads the written cell, and
any other address reads another one. -/
theorem memoryReadsBackWrites : Obligations.MemoryReadsBackWrites := by
  intro s a c v hwf
  refine ⟨fun halias => ?_, fun hother => ?_, State.memWrite_wf hwf a v⟩
  · rw [State.memRead_eq_of_mod_eq _ halias, State.memRead_memWrite_same hwf, zext16_toNat]
  · exact State.memRead_memWrite_ne s (by rwa [and_addrMask_toNat, and_addrMask_toNat]) v

/-! ## wmem (R98), then a fetch (R62) -/

theorem exec_wmem (a b : Word) (s : State) : exec (.wmem a b) s = execWmem a b s := rfl

/-- `wmem` with legal operands writes the cell at the VALUE of a, which is never a register reference (R99). -/
theorem exec_wmem_of_val {s : State} {a b : Word} {va vb : Value} (ha : s.val a = some va) (hb : s.val b = some vb) :
    exec (.wmem a b) s = .next ((s.advance 3).memWrite (zext16 va) vb) := by
  have hlit := zext16_isLit va
  have hvb : vb.toNat ≤ Config.valueMax := Nat.le_of_lt_succ vb.isLt
  calc exec (.wmem a b) s
      = s.store 16 [a, b] (zext16 va) vb.toNat (s.advance 3) := by
        rw [exec_wmem, execWmem, State.onVal_of_some ha, State.onVal_of_some hb]
    _ = .next ((s.advance 3).put (zext16 va) vb) := by
        rw [State.store_of_legal _ _ _ _ (legalWord_of_isLit hlit) hvb, BitVec.ofNat_toNat, BitVec.setWidth_eq]
    _ = .next ((s.advance 3).memWrite (zext16 va) vb) := by rw [State.put_of_isLit _ hlit]

/-- A fetch within the 32768 cells reads the cell at the pc and moves the pc on by one. -/
theorem State.fetchWord_of_isLit {s : State} (h : isLit s.pc) : s.fetchWord = some (s.memRead s.pc, s.advance 1) :=
  if_neg (Nat.not_lt.2 h)

/-- Settles O36: the fetch reads the cell that the wmem has written, since nothing else of the state takes part. -/
theorem storedWordIsFetchedNext : Obligations.StoredWordIsFetchedNext := by
  intro a b s hlegal hwf
  obtain ⟨va, ha, hva, -⟩ := s.val_of_legal (Instr.legalWord_of_wellFormed hlegal (w := a) (by simp [Instr.operands]))
  obtain ⟨vb, hb, -, hvb⟩ := s.val_of_legal (Instr.legalWord_of_wellFormed hlegal (w := b) (by simp [Instr.operands]))
  refine ⟨_, exec_wmem_of_val ha hb, fun u hmem hpc => ?_⟩
  have hcell : u.pc = zext16 va := BitVec.eq_of_toNat_eq (by rw [hpc, zext16_toNat, hva])
  have hread : u.memRead u.pc = zext16 vb := by
    rw [State.memRead_congr hmem, hcell]
    exact State.memRead_memWrite_same (s := s.advance 3) hwf (zext16 va) vb
  rw [State.fetchWord_of_isLit (hcell ▸ zext16_isLit va), hread, hvb]
  rfl

end Sys2Proof.Machine
end

section
/-! PROOFS. The decoder against the encoder (R46 to R55, R69): what is encoded decodes back, with a direct and with an
indirect opcode word; what decodes is well formed; and a step runs the instruction that stands in the cells. -/

namespace Sys2Proof

/-! ## From an instruction to its words -/

/-- R51 and R55 for every instruction: the per-constructor laws, put together. -/
theorem Instr.shape : ∀ i : Instr, Laws.Shape.Statement i
  | .halt => Laws.Shape.halt
  | .set a b => Laws.Shape.set a b
  | .push a => Laws.Shape.push a
  | .pop a => Laws.Shape.pop a
  | .eq a b c => Laws.Shape.eq a b c
  | .gt a b c => Laws.Shape.gt a b c
  | .jmp a => Laws.Shape.jmp a
  | .jt a b => Laws.Shape.jt a b
  | .jf a b => Laws.Shape.jf a b
  | .add a b c => Laws.Shape.add a b c
  | .mult a b c => Laws.Shape.mult a b c
  | .mod a b c => Laws.Shape.mod a b c
  | .and a b c => Laws.Shape.and a b c
  | .or a b c => Laws.Shape.or a b c
  | .not a b => Laws.Shape.not a b
  | .rmem a b => Laws.Shape.rmem a b
  | .wmem a b => Laws.Shape.wmem a b
  | .call a => Laws.Shape.call a
  | .ret => Laws.Shape.ret
  | .out a => Laws.Shape.out a
  | .inp a => Laws.Shape.inp a
  | .noop => Laws.Shape.noop

/-- No instruction has more than three operand words (R46). -/
theorem Instr.operands_length_le (i : Instr) : i.operands.length ≤ 3 := by
  obtain ⟨-, -, hlen, hmax, -⟩ := i.shape
  omega

/-- An opcode is a literal, so it resolves to itself (R69). -/
theorem resolveOpcode_opcode (x : Reg → Value) (i : Instr) : resolveOpcode x i.opcode = i.opcode := by
  obtain ⟨hop, -⟩ := i.shape
  exact resolveOpcode_of_not_isReg x (by omega)

/-- A word that resolves to the opcode, then the operand words, decodes to the instruction, whatever follows. -/
theorem decode_of_resolveOpcode_eq {x : Reg → Value} {w : Word} {i : Instr} (hw : resolveOpcode x w = i.opcode)
    (hi : i.wellFormed = true) (rest : List Word) : decode x (w :: i.operands ++ rest) = .ok (i, rest) := by
  obtain ⟨-, hcount, -, -, hassemble⟩ := i.shape
  have htake : takeOperands i.opcode i.operands.length [] (i.operands ++ rest) = .ok (i.operands, rest) :=
    takeOperands_legal i.opcode i.operands rest [] hi
  simp only [List.cons_append, decode, hw, hcount, htake, hassemble]

/-- Settles O10: the direct opcode word resolves to itself. -/
theorem encodedInstrDecodesBack : Obligations.EncodedInstrDecodesBack :=
  fun x i rest hi => decode_of_resolveOpcode_eq (resolveOpcode_opcode x i) hi rest

/-- Settles O11: the register word resolves to the register's content, which is the opcode. -/
theorem indirectOpcodeDecodesByRegister : Obligations.IndirectOpcodeDecodesByRegister := by
  intro x r i rest hi hx
  have hw : resolveOpcode x (regWord r) = i.opcode := by
    rw [resolveOpcode_regWord]
    exact BitVec.eq_of_toNat_eq ((zext16_toNat (x r)).trans hx)
  exact decode_of_resolveOpcode_eq hw hi rest

/-- Settles O9: each list of words is the encoding of its instruction. -/
theorem familyWordsDecode : Obligations.FamilyWordsDecode := by
  intro x
  exact ⟨encodedInstrDecodesBack x .halt [] rfl, encodedInstrDecodesBack x (.set 32768 4) [] rfl,
    encodedInstrDecodesBack x (.eq 32768 32769 5) [] rfl, encodedInstrDecodesBack x (.jt 32768 6) [] rfl,
    encodedInstrDecodesBack x (.add 32769 32769 32768) [] rfl, encodedInstrDecodesBack x (.wmem 20 32768) [] rfl,
    encodedInstrDecodesBack x (.call 4) [] rfl, encodedInstrDecodesBack x (.inp 32768) [] rfl⟩

/-! ## From words to the instruction -/

/-- What decodes was an opcode word, legal operand words that assemble to it, and the rest. -/
theorem decode_inv {x : Reg → Value} {ws rest : List Word} {i : Instr} (h : decode x ws = .ok (i, rest)) :
    ∃ w l, ws = w :: l ++ rest ∧ l.all legalWord = true ∧ assemble (resolveOpcode x w).toNat l = some i := by
  unfold decode at h
  split at h
  · cases h
  next w ws =>
    split at h
    · cases h
    next n hcount =>
      split at h
      · cases h
      next ops rest' htake =>
        split at h
        · cases h
        next j hassemble =>
          cases h
          obtain ⟨l, -, hlegal, rfl, rfl⟩ := takeOperands_inv htake
          exact ⟨w, _, rfl, hlegal, hassemble⟩

/-- Settles O12: the legal words the decoder took are the operands of what they assemble to. -/
theorem decodedInstrIsWellFormed : Obligations.DecodedInstrIsWellFormed := by
  intro x ws i rest h
  obtain ⟨w, l, rfl, hlegal, hassemble⟩ := decode_inv h
  obtain ⟨hop, rfl⟩ := assemble_inv hassemble
  exact ⟨hlegal, w, rfl, BitVec.eq_of_toNat_eq hop.symm⟩

end Sys2Proof

namespace Sys2Proof.Machine

/-! ## The step -/

/-- A step whose words decode runs the instruction (R60). -/
theorem step_of_decode_ok {s : State} (hs : s.stopped = false) {i : Instr} {rest : List Word}
    (h : decode s.regs.get (s.fetchWords 4) = .ok (i, rest)) : step s = exec i s := by
  simp [step, State.fetchDecode, hs, h]

/-- The first `k` of `m` operand cells stand at the front. -/
theorem State.operandCells_eq_append (s : State) {k m : Nat} (h : k ≤ m) :
    ∃ rest, s.operandCells m = s.operandCells k ++ rest := by
  rcases h.eq_or_lt with rfl | hlt
  · exact ⟨[], (List.append_nil _).symm⟩
  · obtain ⟨rest, hrest⟩ := s.operandCells_split hlt
    exact ⟨_, hrest⟩

/-- Settles O14: the words a step fetches begin with the opcode word and the operand words. -/
theorem stepRunsInstrInCells : Obligations.StepRunsInstrInCells := by
  intro s i hs hi hfit hop hcells
  have hlen := i.operands_length_le
  obtain ⟨rest, hrest⟩ :=
    s.operandCells_eq_append (show i.operands.length ≤ min 3 (32767 - s.pc.toNat) by omega)
  refine step_of_decode_ok hs (rest := rest) ?_
  rw [State.fetchWords_four (by omega), hrest, hcells]
  exact decode_of_resolveOpcode_eq hop hi rest

/-- Settles O20: the operand faults of one opcode, for each opcode of the map. -/
theorem operandFaultsComeInOrder : Obligations.OperandFaultsComeInOrder :=
  fun _ _ hn => operandFetchFaults_of_operandCount hn

end Sys2Proof.Machine
end

section
/-! PROOFS. The classes of a raw word as bit forms (R47), and the byte order of an image (R58). -/

namespace Sys2Proof

/-! ## The three classes (R47) -/

theorem getLsbD_fifteen_eq_true_iff (w : Word) : w.getLsbD 15 = true ↔ 32768 ≤ w.toNat := by
  rw [BitVec.getLsbD, Nat.testBit_eq_decide_div_mod_eq, decide_eq_true_eq]
  omega

theorem isLit_iff_getLsbD (w : Word) : isLit w ↔ w.getLsbD 15 = false := by
  rw [← Bool.not_eq_true, getLsbD_fifteen_eq_true_iff]
  omega

/-- The bits from `start` on, as a number: a quotient cut to the field's length. -/
theorem extractLsb'_toNat_eq (w : Word) (start len : Nat) :
    (w.extractLsb' start len).toNat = w.toNat / 2 ^ start % 2 ^ len := by
  rw [BitVec.extractLsb'_toNat, Nat.shiftRight_eq_div_pow]

theorem isReg_iff_extractLsb' (w : Word) : isReg w ↔ w.extractLsb' 3 13 = 0b1000000000000 := by
  rw [← BitVec.toNat_inj, extractLsb'_toNat_eq]
  change _ ↔ _ = 4096
  omega

theorem isBad_iff_getLsbD_and_extractLsb' (w : Word) :
    isBad w ↔ w.getLsbD 15 = true ∧ w.extractLsb' 3 12 ≠ 0 := by
  rw [getLsbD_fifteen_eq_true_iff, ne_eq, ← BitVec.toNat_inj, extractLsb'_toNat_eq]
  change _ ↔ _ ∧ ¬_ = 0
  omega

theorem toNat_of_isReg {w : Word} (h : isReg w) : w.toNat = 32768 + (w.extractLsb' 0 3).toNat := by
  rw [extractLsb'_toNat_eq]
  omega

/-- Settles O8: the bit forms are the lemmas above; that the ranges exclude each other and leave nothing out is
arithmetic. -/
theorem wordClassesAreRangesAndBits : Obligations.WordClassesAreRangesAndBits := by
  intro w
  refine ⟨isLit_iff_getLsbD w, isReg_iff_extractLsb' w, isBad_iff_getLsbD_and_extractLsb' w, ?_, ?_, ?_, ?_,
    fun h => ⟨regWord_regIdx h, toNat_of_isReg h⟩, rfl, rfl, rfl, rfl, rfl, rfl, rfl, rfl⟩ <;> omega

/-! ## The image (R58) -/

theorem length_imageWords (bytes : List (BitVec 8)) : (imageWords bytes).length = bytes.length / 2 := by
  induction bytes using imageWords.induct with
  | case1 lo hi bytes ih =>
    simp only [imageWords, List.length_cons, ih]
    omega
  | case2 => simp [imageWords]
  | case3 => rfl

/-- A word of two bytes, as a number: the low byte counts 1, the high byte 256. -/
theorem toNat_append_bytes (hi lo : BitVec 8) : (hi ++ lo).toNat = lo.toNat + 256 * hi.toNat := by
  rw [BitVec.toNat_append, ← Nat.shiftLeft_add_eq_or_of_lt lo.isLt, Nat.shiftLeft_eq]
  omega

theorem getElem?_imageWords (bytes : List (BitVec 8)) {k : Nat} (h : 2 * k + 1 < bytes.length) :
    (imageWords bytes)[k]? = some (bytes[2 * k + 1] ++ bytes[2 * k]) := by
  induction bytes using imageWords.induct generalizing k with
  | case1 lo hi bytes ih =>
    cases k with
    | zero => rfl
    | succ k =>
      have hk : 2 * k + 1 < bytes.length := by
        simp only [List.length_cons] at h
        omega
      exact ih hk
  | case2 => simp at h
  | case3 => simp at h

/-- Settles O3: word k is made of the bytes 2k and 2k + 1. -/
theorem imageBytesGiveLittleEndianWords : Obligations.ImageBytesGiveLittleEndianWords := by
  refine fun bytes => ⟨length_imageWords bytes, fun k h => ?_⟩
  rw [getElem?_imageWords bytes h, Option.map_some, toNat_append_bytes]

end Sys2Proof
end

section
/-! PROOFS. An illegal operand word (R54, R63, R64, R71): what the two operand modes do with each class of word, and
that every instruction takes the fault of its first illegal word. -/

namespace Sys2Proof.Machine

/-- Settles O32: a clause per class of word, by the laws of the two modes. -/
theorem operandModesResolve : Obligations.OperandModesResolve := by
  intro s op seen w kv ks
  refine ⟨fun hlit => ?_, fun r hr => ?_, fun hlegal => ?_, fun hbad => ⟨?_, ?_⟩⟩
  · exact State.onVal_of_some (s.val_of_isLit hlit) op seen kv
  · subst hr
    rw [State.onVal_of_some (s.val_of_isReg (isReg_regWord r)), regIdx_regWord]
  · exact s.onSlot_of_legal (by simpa [legalWord] using hlegal) op seen ks
  · exact s.onVal_of_isBad hbad op seen kv
  · exact s.onSlot_of_isBad hbad op seen ks

/-! ## The first illegal operand word -/

/-- `r` is what R71 asks of an instruction that still has the operand words `ws` to resolve, after `seen`: when the
first illegal one of them is word `k`, `r` is the fault of R123 for that word and nothing else. -/
def FaultsAtFirstIllegal (s : State) (op : Word) (seen ws : List Word) (r : Result) : Prop :=
  ∀ (k : Nat) (h : k < ws.length), (ws.take k).all legalWord = true → isBad ws[k] →
    r = .next (s.enterFault .outOfRangeAddress (some op) (seen ++ ws.take (k + 1)) (some ws[k].toNat))

namespace FaultsAtFirstIllegal

section
variable {s : State} {op w : Word} {seen ws : List Word} {r : Result}

/-- With no word left there is nothing to fault at. -/
theorem nil : FaultsAtFirstIllegal s op seen [] r := fun _ h => absurd h (Nat.not_lt_zero _)

/-- The first word faults if it is illegal; if it is legal the words after it decide. -/
theorem cons
    (hbad : isBad w → r = .next (s.enterFault .outOfRangeAddress (some op) (seen ++ [w]) (some w.toNat)))
    (hlegal : legalWord w = true → FaultsAtFirstIllegal s op (seen ++ [w]) ws r) :
    FaultsAtFirstIllegal s op seen (w :: ws) r := by
  intro k hk hbefore hword
  cases k with
  | zero => exact hbad hword
  | succ k =>
    simp only [List.take_succ_cons, List.all_cons, Bool.and_eq_true] at hbefore
    obtain ⟨hw, hrest⟩ := hbefore
    rw [hlegal hw k (Nat.lt_of_succ_lt_succ hk) hrest hword, List.append_assoc]
    rfl

theorem onVal {k : Value → Result} (hk : ∀ v, FaultsAtFirstIllegal s op (seen ++ [w]) ws (k v)) :
    FaultsAtFirstIllegal s op seen (w :: ws) (s.onVal op seen w k) := by
  refine cons (fun hbad => s.onVal_of_isBad hbad op seen k) fun hlegal => ?_
  obtain ⟨v, hv⟩ := s.val_isSome_of_legal hlegal
  rw [State.onVal_of_some hv]
  exact hk v

theorem onSlot {k : Word → Result} (hk : ∀ slot, FaultsAtFirstIllegal s op (seen ++ [w]) ws (k slot)) :
    FaultsAtFirstIllegal s op seen (w :: ws) (s.onSlot op seen w k) := by
  refine cons (fun hbad => s.onSlot_of_isBad hbad op seen k) fun hlegal => ?_
  rw [State.onSlot_of_legal s hlegal]
  exact hk w

end

/-! The shared instruction shapes, and the instructions with an operand in slot mode that have no such shape. -/

section
variable (s : State) (op a b c : Word)

theorem binary (f : Value → Value → Value) : FaultsAtFirstIllegal s op [] [a, b, c] (s.binary op f a b c) :=
  onSlot fun _ => onVal fun _ => onVal fun _ => nil

theorem unary (f : Value → Value) : FaultsAtFirstIllegal s op [] [a, b] (s.unary op f a b) :=
  onSlot fun _ => onVal fun _ => nil

theorem jumpIf (cond : Value → Bool) : FaultsAtFirstIllegal s op [] [a, b] (s.jumpIf op cond a b) :=
  onVal fun _ => onVal fun _ => nil

theorem pop : FaultsAtFirstIllegal s 3 [] [a] (execPop a s) := onSlot fun _ => nil

theorem mod : FaultsAtFirstIllegal s 11 [] [a, b, c] (execMod a b c s) :=
  onSlot fun _ => onVal fun _ => onVal fun _ => nil

theorem rmem : FaultsAtFirstIllegal s 15 [] [a, b] (execRmem a b s) := onSlot fun _ => onVal fun _ => nil

theorem inp : FaultsAtFirstIllegal s 20 [] [a] (execIn a s) := onSlot fun _ => nil

end

/-- Every instruction resolves its operand words in order, in the modes of R50. -/
theorem exec (i : Instr) (s : State) : FaultsAtFirstIllegal s i.opcode [] i.operands (exec i s) :=
  match i with
  | .halt => nil
  | .set a b => unary s 1 a b _
  | .push _ => onVal fun _ => nil
  | .pop a => pop s a
  | .eq a b c => binary s 4 a b c _
  | .gt a b c => binary s 5 a b c _
  | .jmp _ => onVal fun _ => nil
  | .jt a b => jumpIf s 7 a b _
  | .jf a b => jumpIf s 8 a b _
  | .add a b c => binary s 9 a b c _
  | .mult a b c => binary s 10 a b c _
  | .mod a b c => mod s a b c
  | .and a b c => binary s 12 a b c _
  | .or a b c => binary s 13 a b c _
  | .not a b => unary s 14 a b _
  | .rmem a b => rmem s a b
  | .wmem _ _ => onVal fun _ => onVal fun _ => nil
  | .call _ => onVal fun _ => nil
  | .ret => nil
  | .out _ => onVal fun _ => nil
  | .inp a => inp s a
  | .noop => nil

end FaultsAtFirstIllegal

/-- Settles O21: all operand words of the instruction are still to be resolved. -/
theorem illFormedInstrFaultsAtFirstIllegalWord : Obligations.IllFormedInstrFaultsAtFirstIllegalWord :=
  fun i s => FaultsAtFirstIllegal.exec i s

end Sys2Proof.Machine
end

section
/-! PROOFS. A step depends on the CORE's state alone, but for the console's answer (R73, R105). Each update commutes
with `State.core`, each operation a meaning is built from takes states with the same core to results with the same
core, and so does every instruction. -/

namespace Sys2Proof.Machine

/-! ## The operations on the state, seen through its core -/

section
variable (s : State)

@[simp] theorem State.enterFault_core (c : FaultCause) (o : Option Word) (ws : List Word) (d : Option Nat) :
    (s.enterFault c o ws d).core = s.core.enterFault c o ws d := rfl
@[simp] theorem State.advance_core (n : Nat) : (s.advance n).core = s.core.advance n := rfl
@[simp] theorem State.setPc_core (w : Word) : (s.setPc w).core = s.core.setPc w := rfl
@[simp] theorem State.setStack_core (st : List Word) : (s.setStack st).core = s.core.setStack st := rfl
@[simp] theorem State.setHalted_core : s.setHalted.core = s.core.setHalted := rfl
@[simp] theorem State.setInq_core (q : List Code) : (s.setInq q).core = s.core.setInq q := rfl
@[simp] theorem State.setOutacc_core (cs : List Code) : (s.setOutacc cs).core = s.core.setOutacc cs := rfl
@[simp] theorem State.writeLine_core (cs : List Code) : (s.writeLine cs).core = s.core := rfl

@[simp] theorem State.put_core (w : Word) (v : Value) : (s.put w v).core = s.core.put w v := by
  unfold State.put; split <;> rfl

@[simp] theorem State.decodeFault_core (e : DecodeError) : (s.decodeFault e).core = s.core.decodeFault e := by
  cases e <;> rfl

theorem State.takeChar_core : s.core.takeChar = (s.takeChar.1, s.takeChar.2.core) := by
  cases h : s.inq with
  | nil => rw [State.takeChar, State.takeChar, show s.core.inq = [] from h, h]
  | cons ch rest => rw [State.takeChar_of_cons h, State.takeChar_of_cons (s := s.core) h]; rfl

/-- Fetching reads the pc and the memory alone (R62). -/
theorem State.fetchWords_core (n : Nat) : s.core.fetchWords n = s.fetchWords n := by
  induction n generalizing s with
  | zero => rfl
  | succ n ih =>
    unfold State.fetchWords State.fetchWord
    by_cases hp : 32767 < s.pc.toNat
    · rw [if_pos hp, if_pos (show 32767 < s.core.pc.toNat from hp)]
    · rw [if_neg hp, if_neg (show ¬ 32767 < s.core.pc.toNat from hp)]
      exact congrArg (s.memRead s.pc :: ·) (ih (s.advance 1))

end

/-- A console that never answers leaves an empty queue without a refill (R106). -/
theorem State.refill_of_nextAnswer_none {s : State} (hq : s.inq = []) (hanswer : s.nextAnswer = none) :
    s.refill = none := by
  unfold State.nextAnswer at hanswer
  unfold State.refill State.readLine
  cases hscript : s.consoleScript with
  | nil =>
    rw [hscript] at hanswer
    simp only [hq, hanswer]
  | cons answer script =>
    rw [hscript] at hanswer
    simp only [hq, hanswer]

/-! ## Results with the same core -/

/-- What R73 asks of the results of two machines: where the first has a next state, so has the second, and the two next
states have the same core. -/
def CoreAgrees (r r' : Result) : Prop := ∀ t, r = .next t → ∃ t', r' = .next t' ∧ t'.core = t.core

theorem coreAgrees_next {t t' : State} (h : t.core = t'.core) : CoreAgrees (.next t) (.next t') := by
  intro t₁ ht
  cases ht
  exact ⟨t', rfl, h.symm⟩

section
variable {s u : State} (h : s.core = u.core)
include h

theorem State.val_eq_of_core_eq (w : Word) : s.val w = u.val w := (congrArg (·.val w) h :)

/-! ### The operand forms and the store -/

theorem coreAgrees_enterFault {c : FaultCause} {o : Option Word} {ws : List Word} {d : Option Nat} :
    CoreAgrees (.next (s.enterFault c o ws d)) (.next (u.enterFault c o ws d)) :=
  coreAgrees_next (by simp [h])

theorem coreAgrees_onVal {op : Word} {seen : List Word} {w : Word} {k k' : Value → Result}
    (hk : ∀ v, CoreAgrees (k v) (k' v)) : CoreAgrees (s.onVal op seen w k) (u.onVal op seen w k') := by
  unfold State.onVal
  rw [State.val_eq_of_core_eq h w]
  split
  · exact hk _
  · exact coreAgrees_enterFault h

theorem coreAgrees_onSlot {op : Word} {seen : List Word} {w : Word} {k k' : Word → Result}
    (hk : ∀ slot, CoreAgrees (k slot) (k' slot)) : CoreAgrees (s.onSlot op seen w k) (u.onSlot op seen w k') := by
  unfold State.onSlot
  split
  · exact coreAgrees_enterFault h
  · exact hk w

theorem coreAgrees_store {s' u' : State} (h' : s'.core = u'.core) {op : Word} {ops : List Word} {slot : Word}
    {v : Nat} : CoreAgrees (s.store op ops slot v s') (u.store op ops slot v u') := by
  unfold State.store
  split_ifs
  · exact coreAgrees_enterFault h
  · exact coreAgrees_enterFault h
  · exact coreAgrees_next (by simp [h'])

theorem coreAgrees_onPush {s' u' : State} (h' : s'.core = u'.core) {op : Word} {ops : List Word} {v : Word}
    {k k' : State → Result} (hk : ∀ t t' : State, t.core = t'.core → CoreAgrees (k t) (k' t')) :
    CoreAgrees (s.onPush op ops v s' k) (u.onPush op ops v u' k') := by
  unfold State.onPush
  have hfull : s'.stackFull = u'.stackFull := (congrArg State.stackFull h' :)
  have hstack : s'.stack = u'.stack := (congrArg State.stack h' :)
  rw [hfull, hstack]
  split
  · exact coreAgrees_enterFault h
  · exact hk _ _ (by simp [h'])

/-! ### The instruction shapes -/

theorem coreAgrees_binary {op : Word} {f : Value → Value → Value} {a b c : Word} :
    CoreAgrees (s.binary op f a b c) (u.binary op f a b c) :=
  coreAgrees_onSlot h fun _ => coreAgrees_onVal h fun _ => coreAgrees_onVal h fun _ =>
    coreAgrees_store h (by simp [h])

theorem coreAgrees_unary {op : Word} {f : Value → Value} {a b : Word} :
    CoreAgrees (s.unary op f a b) (u.unary op f a b) :=
  coreAgrees_onSlot h fun _ => coreAgrees_onVal h fun _ => coreAgrees_store h (by simp [h])

theorem coreAgrees_jumpIf {op : Word} {cond : Value → Bool} {a b : Word} :
    CoreAgrees (s.jumpIf op cond a b) (u.jumpIf op cond a b) := by
  refine coreAgrees_onVal h fun va => coreAgrees_onVal h fun vb => coreAgrees_next ?_
  split <;> simp [h]

/-! ### The instructions with a shape of their own -/

theorem coreAgrees_execPop {a : Word} : CoreAgrees (execPop a s) (execPop a u) := by
  have hstack : s.stack = u.stack := (congrArg State.stack h :)
  refine coreAgrees_onSlot h fun slot => ?_
  rw [hstack]
  cases u.stack with
  | nil => exact coreAgrees_enterFault h
  | cons e rest => exact coreAgrees_store h (by simp [h])

theorem coreAgrees_execMod {a b c : Word} : CoreAgrees (execMod a b c s) (execMod a b c u) := by
  refine coreAgrees_onSlot h fun slot => coreAgrees_onVal h fun vb => coreAgrees_onVal h fun vc => ?_
  split
  · exact coreAgrees_enterFault h
  · exact coreAgrees_store h (by simp [h])

theorem coreAgrees_execRmem {a b : Word} : CoreAgrees (execRmem a b s) (execRmem a b u) := by
  have hmem : s.mem = u.mem := (congrArg State.mem h :)
  refine coreAgrees_onSlot h fun slot => coreAgrees_onVal h fun vb => ?_
  rw [State.loadAt_value, State.loadAt_value, State.memRead_congr hmem]
  exact coreAgrees_store h (by simp [h])

theorem coreAgrees_execCall {a : Word} : CoreAgrees (execCall a s) (execCall a u) := by
  have hpc : s.pc = u.pc := (congrArg State.pc h :)
  refine coreAgrees_onVal h fun va => ?_
  rw [State.advance_pc, State.advance_pc, hpc]
  exact coreAgrees_onPush h h fun t t' ht => coreAgrees_next (by simp [ht])

theorem coreAgrees_execRet : CoreAgrees (execRet s) (execRet u) := by
  have hstack : s.stack = u.stack := (congrArg State.stack h :)
  unfold execRet
  rw [hstack]
  split <;> exact coreAgrees_next (by simp [h])

/-- The console's log is outside the core, and what is written to it is the accumulator (R105). -/
theorem coreAgrees_execOut {a : Word} : CoreAgrees (execOut a s) (execOut a u) := by
  have houtacc : s.outacc = u.outacc := (congrArg State.outacc h :)
  refine coreAgrees_onVal h fun va => ?_
  split
  · exact coreAgrees_next (by simp [h])
  · exact coreAgrees_next (by simp [h, houtacc])

/-! ### `in`, the one instruction that asks the console (R104) -/

/-- The refilled states have the same core when the queue is filled, or the console's answer is the same. -/
theorem State.refill_core (hanswer : s.inq ≠ [] ∨ s.nextAnswer = u.nextAnswer) {s1 : State}
    (hr : s.refill = some s1) : ∃ u1, u.refill = some u1 ∧ s1.core = u1.core := by
  have hinq : s.inq = u.inq := (congrArg State.inq h :)
  cases hq : s.inq with
  | cons ch rest =>
    rw [State.refill_of_cons hq] at hr
    cases hr
    exact ⟨u, State.refill_of_cons (hinq ▸ hq), h⟩
  | nil =>
    have hsame : s.nextAnswer = u.nextAnswer := hanswer.resolve_left (not_not_intro hq)
    cases hline : s.nextAnswer with
    | none =>
      rw [State.refill_of_nextAnswer_none hq hline] at hr
      cases hr
    | some line =>
      rw [State.refill_of_nextAnswer hq hline] at hr
      cases hr
      refine ⟨_, State.refill_of_nextAnswer (hinq ▸ hq) (hsame ▸ hline), ?_⟩
      exact congrArg (fun x : State => x.setInq (line ++ [lineFeed])) h

theorem coreAgrees_execIn (hanswer : s.inq ≠ [] ∨ s.nextAnswer = u.nextAnswer) {a : Word} :
    CoreAgrees (execIn a s) (execIn a u) := by
  refine coreAgrees_onSlot h fun slot => ?_
  cases hr : s.refill with
  | none => exact fun t ht => nomatch ht
  | some s1 =>
    obtain ⟨u1, hr', h1⟩ := State.refill_core h hanswer hr
    have htaken : (s1.takeChar.1, s1.takeChar.2.core) = (u1.takeChar.1, u1.takeChar.2.core) := by
      rw [← State.takeChar_core, ← State.takeChar_core, h1]
    obtain ⟨hchar, hcore⟩ := Prod.mk.inj htaken
    simp only [hr', hchar]
    exact coreAgrees_store hcore (by simp [hcore])

/-! ### Every instruction, and the step -/

theorem coreAgrees_exec (i : Instr) (hin : ∀ a, i = .inp a → s.inq ≠ [] ∨ s.nextAnswer = u.nextAnswer) :
    CoreAgrees (exec i s) (exec i u) := by
  cases i with
  | halt => exact coreAgrees_next (by simp [h])
  | set => exact coreAgrees_unary h
  | push =>
    exact coreAgrees_onVal h fun _ => coreAgrees_onPush h (by simp [h]) fun _ _ => coreAgrees_next
  | pop => exact coreAgrees_execPop h
  | eq => exact coreAgrees_binary h
  | gt => exact coreAgrees_binary h
  | jmp => exact coreAgrees_onVal h fun _ => coreAgrees_next (by simp [h])
  | jt => exact coreAgrees_jumpIf h
  | jf => exact coreAgrees_jumpIf h
  | add => exact coreAgrees_binary h
  | mult => exact coreAgrees_binary h
  | mod => exact coreAgrees_execMod h
  | and => exact coreAgrees_binary h
  | or => exact coreAgrees_binary h
  | not => exact coreAgrees_unary h
  | rmem => exact coreAgrees_execRmem h
  | wmem => exact coreAgrees_onVal h fun _ => coreAgrees_onVal h fun _ => coreAgrees_store h (by simp [h])
  | call => exact coreAgrees_execCall h
  | ret => exact coreAgrees_execRet h
  | out => exact coreAgrees_execOut h
  | inp a => exact coreAgrees_execIn h (hin a rfl)
  | noop => exact coreAgrees_next (by simp [h])

/-- Machines with the same core fetch and decode alike, and are stopped alike. -/
theorem State.decode_eq_of_core_eq :
    s.stopped = u.stopped ∧
      decode s.regs.get (s.fetchWords 4) = decode u.regs.get (u.fetchWords 4) := by
  have hregs : s.regs = u.regs := (congrArg State.regs h :)
  refine ⟨(congrArg State.stopped h :), ?_⟩
  rw [hregs, ← s.fetchWords_core, ← u.fetchWords_core, h]

end

/-! ## The step of a machine that is stopped, or has words that decode (R60, R61) -/

theorem step_of_stopped {s : State} (h : s.stopped = true) : step s = .next s := by
  simp [step, State.fetchDecode, h]

theorem State.fetchDecode_of_decode_ok {s : State} (hs : s.stopped = false) {i : Instr} {rest : List Word}
    (h : decode s.regs.get (s.fetchWords 4) = .ok (i, rest)) : s.fetchDecode = .run i := by
  simp [State.fetchDecode, hs, h]

/-- Settles O24: in each of the three ways the first machine's step can go, the second machine's goes the same way; an
`in` that runs is covered by one of the two conditions on the queue and the answer. -/
theorem stepDependsOnCoreAndAnswer : Obligations.StepDependsOnCoreAndAnswer := by
  intro s u t h hanswer hstep
  obtain ⟨hstopped, hdecode⟩ := State.decode_eq_of_core_eq h
  rcases step_cases hstep with ⟨hs, rfl⟩ | ⟨hs, e, he, rfl⟩ | ⟨hs, i, rest, hi, hexec⟩
  · exact ⟨u, step_of_stopped (hstopped ▸ hs), h.symm⟩
  · exact ⟨_, step_of_decode_error (hstopped ▸ hs) (hdecode ▸ he), by simp [h]⟩
  · rw [step_of_decode_ok (hstopped ▸ hs) (hdecode ▸ hi)]
    refine coreAgrees_exec h i ?_ t hexec
    rintro a rfl
    rcases hanswer with hinq | hsame | hno
    · exact .inl hinq
    · exact .inr hsame
    · exact absurd (State.fetchDecode_of_decode_ok hs hi) (hno a)

end Sys2Proof.Machine
end

section
/-! PROOFS. The step and the run loop (R60 to R62, R143): a stopped machine, a fetch above the top, the words that
withFetchWord places; and the store contract (R65) and the discarding of a faulting step (R70, R127). -/

namespace Sys2Proof.Machine

/-! ## Stopped machines and the run loop (R61, R143, R144) -/

theorem State.stopped_eq_true_iff (s : State) : s.stopped = true ↔ s.halted = true ∨ s.fault ≠ none := by
  simp [State.stopped, Option.isSome_iff_ne_none]

/-- Settles O16: halted or faulted is what stopped means, and a stopped machine is idle. -/
theorem stoppedStepDoesNothing : Obligations.StoppedStepDoesNothing :=
  fun s h => step_of_stopped (s.stopped_eq_true_iff.2 h)

theorem steps_of_stopped (n : Nat) {s : State} (h : s.stopped = true) : steps n s = .next s := by
  induction n with
  | zero => rfl
  | succ n ih => rw [steps, step_of_stopped h]; exact ih

/-- The loop's test before a step makes no difference, since a step of a stopped machine does nothing. -/
theorem run_eq_steps (n : Nat) (s : State) : run n s = steps n s := by
  induction n generalizing s with
  | zero => rfl
  | succ n ih =>
    by_cases h : s.stopped = true
    · rw [run, if_pos h, steps_of_stopped _ h]
    · rw [run, if_neg h, steps]
      cases step s with
      | next t => exact ih t
      | fault r => rfl
      | refused r => rfl

/-- Settles O17: the loop and the steps agree, and the steps of a stopped machine leave it. -/
theorem runLoopEndsWhereStepsEnd : Obligations.RunLoopEndsWhereStepsEnd :=
  fun n s => ⟨run_eq_steps n s, fun h => steps_of_stopped n (s.stopped_eq_true_iff.2 h)⟩

/-! ## Fetching what stands at the pc (R60, R62) -/

/-- Settles O13: running the decoded instruction is all that a step does. -/
theorem stepRunsDecodedInstr : Obligations.StepRunsDecodedInstr :=
  fun _ _ _ hs _ h => step_of_decode_ok hs h

/-- Above the top there is no word to fetch (R62). -/
theorem State.fetchWords_of_above {s : State} (h : 32767 < s.pc.toNat) (n : Nat) : s.fetchWords n = [] := by
  cases n with
  | zero => rfl
  | succ n => simp only [State.fetchWords, State.fetchWord, if_pos h]

/-- Settles O18: no word is fetched, so there is no opcode. -/
theorem fetchAboveTopFaults : Obligations.FetchAboveTopFaults := by
  intro s hs hpc
  have herr : decode s.regs.get (s.fetchWords 4) = .error .noOpcode := by rw [State.fetchWords_of_above hpc]; rfl
  rw [step_of_decode_error hs herr]
  rfl

/-- Words placed at the pc are what is fetched there, when there are cells for all of them. -/
theorem State.fetchWords_placeAtPc {s : State} (hs : s.mem.wf = true) {ws : List Word}
    (hfit : s.pc.toNat + ws.length ≤ 32768) : (s.placeAtPc ws).fetchWords ws.length = ws := by
  have htake : ws.take (Config.memWords - s.pc.toNat) = ws := List.take_of_length_le (Nat.le_sub_of_add_le' hfit)
  have hcells : min ws.length (32768 - (s.placeAtPc ws).pc.toNat) = ws.length :=
    Nat.min_eq_left (Nat.le_sub_of_add_le' hfit)
  have hpc : (s.placeAtPc ws).pc.toNat ≤ 32768 := Nat.le_trans (Nat.le_add_right _ _) hfit
  rw [State.fetchWords_eq _ _ hpc, hcells]
  refine List.ext_getElem (by simp) fun k _ hk => ?_
  have haddr : (s.pc + BitVec.ofNat 16 k).toNat = s.pc.toNat + k := toNat_add_ofNat_of_le (by omega)
  rw [List.getElem_map, List.getElem_range]
  change (s.mem.place s.pc.toNat (ws.take (Config.memWords - s.pc.toNat))).read
    ((s.pc + BitVec.ofNat 16 k) &&& addrMask).toNat = ws[k]
  rw [htake, and_addrMask_of_isLit (by omega), haddr]
  exact Memory.read_place hs hfit hk

/-- Settles O15: the four words of the table word have a cell each, so the step fetches them. -/
theorem placedTableWordRunsNext : Obligations.PlacedTableWordRunsNext := by
  intro s nbits w i rest hs hwf hpc hdecode
  have hfetch : (s.withFetchWord nbits w).fetchWords 4 = tableWords nbits w :=
    State.fetchWords_placeAtPc hwf (ws := tableWords nbits w) (Nat.add_le_add_right hpc 4)
  exact step_of_decode_ok (s := s.withFetchWord nbits w) hs (hfetch.symm ▸ hdecode)

/-! ## The store contract (R65) -/

theorem State.store_of_isBad (s0 s : State) (op : Word) (ops : List Word) {slot : Word} (hs : isBad slot) {v : Nat}
    (hv : v ≤ Config.valueMax) :
    s0.store op ops slot v s = .next (s0.enterFault .outOfRangeAddress (some op) ops (some slot.toNat)) := by
  rw [State.store, if_neg (Nat.not_lt.2 hv), if_pos hs]

@[simp] theorem State.advance_zero (s : State) : s.advance 0 = s := by
  simp [State.advance]

/-- Settles O33: a clause per outcome of the store. -/
theorem storeContractHolds : Obligations.StoreContractHolds := by
  intro s0 s op ops slot v
  refine ⟨fun hbig => s0.store_of_big s op ops slot hbig, fun hv hslot hwf => ?_,
    fun hv hbad => s0.store_of_isBad s op ops hbad hv⟩
  have hlegal : legalWord slot = true := decide_eq_true hslot
  have hval : (BitVec.ofNat 15 v).toNat = v := by rw [BitVec.toNat_ofNat]; omega
  have hstores := State.put_stores hwf hlegal (BitVec.ofNat 15 v) 0
  rw [State.advance_zero, hval] at hstores
  exact ⟨_, s0.store_of_legal s op ops hlegal hv, hstores⟩

/-! ## A faulting step (R70, R127) -/

/-- Settles O22: a fault of the fetch writes the latch alone, and one of an instruction is the case of the latch's frame
in which it holds that instruction's record. -/
theorem faultDiscardsTheStep : Obligations.FaultDiscardsTheStep := by
  intro s t f hs hstep hf
  rcases step_cases hstep with ⟨-, rfl⟩ | ⟨-, e, -, rfl⟩ | ⟨-, i, rest, -, hexec⟩
  · cases hs.symm.trans hf
  · obtain ⟨c, o, ws, d, heq⟩ := s.decodeFault_eq e
    rw [heq] at hf ⊢
    cases hf
    exact ⟨rfl, rfl, fun _ => rfl⟩
  · rcases faultLatchFrame i s t hexec with hsame | ⟨f', hpc, hop, -, hrest, hother⟩
    · cases hs.symm.trans (hsame.symm.trans hf)
    · have hf' : f' = f := by rw [hrest] at hf; injection hf
      subst hf'
      refine ⟨hpc, hrest, fun hne => hother fun a hi => hne ?_⟩
      rw [hop, hi]
      rfl

/-! ## halt (R80) -/

/-- Settles O39: the step after it finds the machine halted. -/
theorem haltSetsHalted : Obligations.HaltSetsHalted :=
  ⟨rfl, fun _ => ⟨rfl, step_of_stopped rfl⟩⟩

end Sys2Proof.Machine
end

section
/-! PROOFS. noop (R81). -/

namespace Sys2Proof.Machine

/-- Settles O40: behind address 32767 the next fetch is above the top (R62). -/
theorem noopAdvancesOnly : Obligations.NoopAdvancesOnly := by
  refine ⟨rfl, fun s => ⟨rfl, fun hs hpc => ?_⟩⟩
  have htop : s.pc + 1 = 32768 := by rw [hpc]; rfl
  rw [htop]
  exact fetchAboveTopFaults { s with pc := 32768 } hs (by decide : 32767 < (32768 : Word).toNat)

end Sys2Proof.Machine
end

section
/-! PROOFS. set, push and pop (R82 to R84): what each does with legal operand words, from the store contract (R65) and
the push (R67). -/

namespace Sys2Proof.Machine

/-! ## The store as the last act of an instruction (R65) -/

/-- A value that fits goes into a legal slot, the pc moves `n` cells on, and the working state changes no further. -/
theorem State.store_stores (s0 : State) {s : State} (hs : s.mem.wf = true) (op : Word) (ops : List Word) {slot : Word}
    (hslot : legalWord slot = true) {v : Nat} (hv : v ≤ 32767) (n : Nat) :
    ∃ t, s0.store op ops slot v (s.advance n) = .next t ∧ Stores s t slot v n := by
  have hval : (BitVec.ofNat 15 v).toNat = v := (BitVec.toNat_ofNat ..).trans (Nat.mod_eq_of_lt (Nat.lt_succ_of_le hv))
  have hstores := State.put_stores hs hslot (BitVec.ofNat 15 v) n
  rw [hval] at hstores
  exact ⟨_, s0.store_of_legal _ op ops hslot hv, hstores⟩

/-- A two-operand storing instruction with legal operand words stores `f` of the value of b (R82, R95). -/
theorem State.unary_stores {s : State} (hs : s.mem.wf = true) (op : Word) (f : Value → Value) {a b : Word} {vb : Value}
    (ha : legalWord a = true) (hb : s.val b = some vb) :
    ∃ t, s.unary op f a b = .next t ∧ Stores s t a (f vb).toNat 3 := by
  rw [State.unary, State.onSlot_of_legal s ha, State.onVal_of_some hb]
  exact s.store_stores hs op [a, b] ha (Nat.le_of_lt_succ (f vb).isLt) 3

/-! ## Room on the stack (R67) -/

theorem State.stackFull_eq_false {s : State} (h : ∀ n, s.stackCapacity = some n → s.stack.length < n) :
    s.stackFull = false := by
  unfold State.stackFull
  split
  · rfl
  · exact decide_eq_false (Nat.not_le.2 (h _ ‹_›))

theorem State.stackFull_eq_true {s : State} {n : Nat} (hn : s.stackCapacity = some n) (h : n ≤ s.stack.length) :
    s.stackFull = true := by
  simp only [State.stackFull, hn, decide_eq_true h]

@[simp] theorem State.advance_stackFull (s : State) (n : Nat) : (s.advance n).stackFull = s.stackFull := rfl

theorem State.onPush_of_room (s0 : State) {s : State} (h : s.stackFull = false) (op : Word) (ops : List Word) (v : Word)
    (k : State → Result) : s0.onPush op ops v s k = k (s.setStack (v :: s.stack)) :=
  if_neg (Bool.eq_false_iff.1 h)

theorem State.onPush_of_full (s0 : State) {s : State} (h : s.stackFull = true) (op : Word) (ops : List Word) (v : Word)
    (k : State → Result) :
    s0.onPush op ops v s k = .next (s0.enterFault .stackOverflow (some op) ops (some v.toNat)) := if_pos h

/-! ## set (R82) -/

theorem exec_set (a b : Word) (s : State) : exec (.set a b) s = s.unary 1 (fun vb => vb) a b := rfl

/-- Settles O41: set stores the value of b as it is. -/
theorem setStoresItsValue : Obligations.SetStoresItsValue := by
  refine ⟨operandFetchFaults_of_operandCount rfl, fun a b s => ⟨rfl, fun hlegal hwf => ?_⟩⟩
  have ha := Instr.legalWord_of_wellFormed hlegal (w := a) (by simp [Instr.operands])
  obtain ⟨vb, hb, hvb, -⟩ := s.val_of_legal (Instr.legalWord_of_wellFormed hlegal (w := b) (by simp [Instr.operands]))
  rw [exec_set, ← hvb]
  exact State.unary_stores hwf 1 (fun vb => vb) ha hb

/-! ## push (R83) -/

/-- `push` with a legal operand word is the push of its value, whatever the stack holds. -/
theorem exec_push_of_val {s : State} {a : Word} {va : Value} (ha : s.val a = some va) :
    exec (.push a) s = s.onPush 2 [a] (zext16 va) (s.advance 2) .next :=
  State.onVal_of_some ha 2 [] _

/-- Settles O42: the push of a legal operand's value, onto a stack with room and onto a full one. -/
theorem pushAddsItsValue : Obligations.PushAddsItsValue := by
  refine ⟨operandFetchFaults_of_operandCount rfl, fun a s => ⟨rfl, fun hlegal hroom => ?_, fun hlegal n hn hfull => ?_⟩⟩
  · obtain ⟨va, ha, -, hword⟩ := s.val_of_legal (Instr.legalWord_of_wellFormed hlegal (List.mem_singleton_self a))
    rw [exec_push_of_val ha, State.onPush_of_room s (s := s.advance 2) (State.stackFull_eq_false hroom), hword]
    rfl
  · obtain ⟨va, ha, hva, -⟩ := s.val_of_legal (Instr.legalWord_of_wellFormed hlegal (List.mem_singleton_self a))
    rw [exec_push_of_val ha, State.onPush_of_full s (s := s.advance 2) (State.stackFull_eq_true hn hfull),
      zext16_toNat, hva]
    rfl

/-! ## pop (R84) -/

theorem exec_pop (a : Word) (s : State) : exec (.pop a) s = execPop a s := rfl

section
variable {s : State} {a : Word} (ha : legalWord a = true)
include ha

theorem exec_pop_of_nil (hst : s.stack = []) :
    exec (.pop a) s = .next (s.enterFault .stackUnderflow (some 3) [a] none) := by
  rw [exec_pop, execPop, State.onSlot_of_legal s ha]
  simp only [hst]

/-- `pop` stores the top entry in the state without it; a fault of the store is taken with the entry still there. -/
theorem exec_pop_of_cons {e : Word} {rest : List Word} (hst : s.stack = e :: rest) :
    exec (.pop a) s = s.store 3 [a] a e.toNat ((s.setStack rest).advance 2) := by
  rw [exec_pop, execPop, State.onSlot_of_legal s ha]
  simp only [hst]

end

/-- Settles O43: an empty stack underflows; a top entry is stored, and one above 32767 is what the store refuses. -/
theorem popStoresTheTop : Obligations.PopStoresTheTop := by
  refine ⟨operandFetchFaults_of_operandCount rfl, fun a s => ⟨rfl, fun hlegal hwf e rest hst he => ?_,
    fun hlegal hst => ?_, fun hlegal e rest hst he => ?_⟩⟩
  · have ha := Instr.legalWord_of_wellFormed hlegal (List.mem_singleton_self a)
    rw [exec_pop_of_cons ha hst]
    exact s.store_stores (s := s.setStack rest) hwf 3 [a] ha he 2
  · exact exec_pop_of_nil (Instr.legalWord_of_wellFormed hlegal (List.mem_singleton_self a)) hst
  · rw [exec_pop_of_cons (Instr.legalWord_of_wellFormed hlegal (List.mem_singleton_self a)) hst]
    exact s.store_of_big _ 3 [a] a he

end Sys2Proof.Machine
end

section
/-! PROOFS. eq and gt (R85, R86): the three-operand storing instruction (format F3) with legal operand words, and the
two comparisons on natural numbers. -/

namespace Sys2Proof.Machine

/-! ## A three-operand storing instruction (R85, R86, R90, R91, R93, R94) -/

/-- When `f` computes `g` on the numbers of its two values, `op a b c` with legal operand words stores `g` of the
numbers b and c resolve to. -/
theorem State.binary_stores {s : State} (hs : s.mem.wf = true) (op : Word) {f : Value → Value → Value}
    {g : Nat → Nat → Nat} (hfg : ∀ vb vc, (f vb vc).toNat = g vb.toNat vc.toNat) {a b c : Word}
    (hlegal : ∀ w ∈ [a, b, c], legalWord w = true) :
    ∃ t, s.binary op f a b c = .next t ∧ Stores s t a (g (s.operandValue b) (s.operandValue c)) 4 := by
  have ha := hlegal a (by simp)
  obtain ⟨vb, hb, hvb, -⟩ := s.val_of_legal (hlegal b (by simp))
  obtain ⟨vc, hc, hvc, -⟩ := s.val_of_legal (hlegal c (by simp))
  rw [State.binary, State.onSlot_of_legal s ha, State.onVal_of_some hb, State.onVal_of_some hc, ← hvb, ← hvc, ← hfg]
  exact s.store_stores hs op [a, b, c] ha (Nat.le_of_lt_succ (f vb vc).isLt) 4

/-! ## The comparisons as numbers -/

theorem eqResult_toNat (vb vc : Value) : (eqResult vb vc).toNat = if vb.toNat = vc.toNat then 1 else 0 :=
  apply_ite BitVec.toNat _ _ _

theorem gtResult_toNat (vb vc : Value) : (gtResult vb vc).toNat = if vc.toNat < vb.toNat then 1 else 0 :=
  apply_ite BitVec.toNat _ _ _

/-! ## eq and gt (R85, R86) -/

theorem exec_eq (a b c : Word) (s : State) : exec (.eq a b c) s = s.binary 4 eqResult a b c := rfl

theorem exec_gt (a b c : Word) (s : State) : exec (.gt a b c) s = s.binary 5 gtResult a b c := rfl

/-- Settles O44: eq stores whether the numbers of b and c are equal. -/
theorem eqStoresEquality : Obligations.EqStoresEquality := by
  refine ⟨operandFetchFaults_of_operandCount rfl, fun a b c s => ⟨rfl, fun hwf hmem => ?_⟩⟩
  rw [exec_eq]
  exact State.binary_stores (g := fun x y => if x = y then 1 else 0) hmem 4 eqResult_toNat
    fun _ => Instr.legalWord_of_wellFormed hwf

/-- Settles O45: gt stores whether the number of c is below that of b. -/
theorem gtStoresUnsignedGreater : Obligations.GtStoresUnsignedGreater := by
  refine ⟨operandFetchFaults_of_operandCount rfl, fun a b c s => ⟨rfl, fun hwf hmem => ?_⟩⟩
  rw [exec_gt]
  exact State.binary_stores (g := fun x y => if y < x then 1 else 0) hmem 5 gtResult_toNat
    fun _ => Instr.legalWord_of_wellFormed hwf

end Sys2Proof.Machine
end

section
/-! PROOFS. jmp, jt and jf (R87 to R89) with legal operand words: the jump on a condition (format F2), and the two
conditions on natural numbers. -/

namespace Sys2Proof.Machine

/-! ## A jump on a condition (R88, R89) -/

/-- When `cond` tests `p` on the number of its value, `op a b` with legal operand words goes to the value of b if the
number a resolves to meets `p`, else behind its words; nothing but the pc changes. -/
theorem State.jumpIf_of_legal (s : State) (op : Word) {cond : Value → Bool} {p : Nat → Prop} [DecidablePred p]
    (hcond : ∀ va, cond va = true ↔ p va.toNat) {a b : Word} (ha : legalWord a = true) (hb : legalWord b = true) :
    s.jumpIf op cond a b =
      .next (s.setPc (if p (s.operandValue a) then BitVec.ofNat 16 (s.operandValue b) else s.pc + 3)) := by
  obtain ⟨va, hva, htest, -⟩ := s.val_of_legal ha
  obtain ⟨vb, hvb, -, htarget⟩ := s.val_of_legal hb
  rw [State.jumpIf, State.onVal_of_some hva, State.onVal_of_some hvb, State.ite_setPc_advance, htarget, ← htest]
  simp only [hcond, BitVec.ofNat_eq_ofNat]

theorem isNonzero_iff (va : Value) : isNonzero va = true ↔ va.toNat ≠ 0 := decide_eq_true_iff

theorem isZero_iff (va : Value) : isZero va = true ↔ va.toNat = 0 := decide_eq_true_iff

/-! ## jmp, jt and jf -/

theorem exec_jmp (a : Word) (s : State) : exec (.jmp a) s = s.onVal 6 [] a fun va => .next (s.setPc (zext16 va)) := rfl

theorem exec_jt (a b : Word) (s : State) : exec (.jt a b) s = s.jumpIf 7 isNonzero a b := rfl

theorem exec_jf (a b : Word) (s : State) : exec (.jf a b) s = s.jumpIf 8 isZero a b := rfl

/-- Settles O46: jmp goes to the value of a, whatever it is. -/
theorem jmpGoesToItsValue : Obligations.JmpGoesToItsValue := by
  refine ⟨operandFetchFaults_of_operandCount rfl, fun a s => ⟨rfl, fun hwf => ?_⟩⟩
  obtain ⟨va, hva, -, htarget⟩ := s.val_of_legal (Instr.legalWord_of_wellFormed hwf (List.mem_singleton_self a))
  rw [exec_jmp, State.onVal_of_some hva, htarget]
  rfl

/-- Settles O47: the condition of jt is that the number of a is not 0. -/
theorem jtJumpsIfNonzero : Obligations.JtJumpsIfNonzero := by
  refine ⟨operandFetchFaults_of_operandCount rfl, fun a b s => ⟨rfl, fun hwf => ?_⟩⟩
  have ha := Instr.legalWord_of_wellFormed hwf (w := a) (by simp [Instr.operands])
  have hb := Instr.legalWord_of_wellFormed hwf (w := b) (by simp [Instr.operands])
  rw [exec_jt]
  exact s.jumpIf_of_legal 7 (p := (· ≠ 0)) isNonzero_iff ha hb

/-- Settles O48: the condition of jf is that the number of a is 0. -/
theorem jfJumpsIfZero : Obligations.JfJumpsIfZero := by
  refine ⟨operandFetchFaults_of_operandCount rfl, fun a b s => ⟨rfl, fun hwf => ?_⟩⟩
  have ha := Instr.legalWord_of_wellFormed hwf (w := a) (by simp [Instr.operands])
  have hb := Instr.legalWord_of_wellFormed hwf (w := b) (by simp [Instr.operands])
  rw [exec_jf]
  exact s.jumpIf_of_legal 8 (p := (· = 0)) isZero_iff ha hb

end Sys2Proof.Machine
end

section
/-! PROOFS. add, mult, mod, and, or and not (R90 to R96): each result as an operation on natural numbers, the laws of
the results, and what the six instructions do with legal operand words. -/

namespace Sys2Proof.Machine

/-! ## The results as numbers (R90 to R95) -/

@[simp] theorem addResult_toNat (vb vc : Value) : (addResult vb vc).toNat = (vb.toNat + vc.toNat) % 32768 :=
  (BitVec.toNat_ofNat ..).trans (Nat.mod_mod ..)

@[simp] theorem multResult_toNat (vb vc : Value) : (multResult vb vc).toNat = (vb.toNat * vc.toNat) % 32768 :=
  (BitVec.toNat_ofNat ..).trans (Nat.mod_mod ..)

@[simp] theorem modResult_toNat (vb vc : Value) : (modResult vb vc).toNat = vb.toNat % vc.toNat :=
  (BitVec.toNat_ofNat ..).trans (Nat.mod_eq_of_lt ((Nat.mod_le ..).trans_lt vb.isLt))

@[simp] theorem andResult_toNat (vb vc : Value) : (andResult vb vc).toNat = vb.toNat &&& vc.toNat := BitVec.toNat_and ..

@[simp] theorem orResult_toNat (vb vc : Value) : (orResult vb vc).toNat = vb.toNat ||| vc.toNat := BitVec.toNat_or ..

@[simp] theorem notResult_toNat (vb : Value) : (notResult vb).toNat = 32767 - vb.toNat :=
  (BitVec.toNat_ofNat ..).trans (Nat.mod_eq_of_lt (by omega))

/-! ## The laws of the results (R96) -/

theorem addResult_comm (b c : Value) : addResult b c = addResult c b := by
  simp only [addResult, Nat.add_comm]

theorem multResult_comm (b c : Value) : multResult b c = multResult c b := by
  simp only [multResult, Nat.mul_comm]

/-- `32767 - v` is the inversion of each of the 15 bits (R95). -/
theorem notResult_eq_not (b : Value) : notResult b = ~~~b :=
  BitVec.eq_of_toNat_eq ((notResult_toNat b).trans (BitVec.toNat_not (x := b)).symm)

theorem notResult_eq_xor (b : Value) : notResult b = b ^^^ 0x7FFF :=
  (notResult_eq_not b).trans BitVec.xor_allOnes.symm

theorem notResult_notResult (b : Value) : notResult (notResult b) = b := by
  rw [notResult_eq_not, notResult_eq_not, BitVec.not_not]

/-- The last bit of `and` and that of `or` have the sum of the operands' last bits; the rest is by halving. -/
theorem land_add_lor (m n : Nat) : (m &&& n) + (m ||| n) = m + n := by
  induction m using Nat.strong_induction_on generalizing n with
  | _ m ih =>
    rcases Nat.eq_zero_or_pos m with rfl | hm
    · rw [Nat.zero_and, Nat.zero_or]
    · have hrest := ih (m / 2) (Nat.div_lt_self hm Nat.one_lt_two) (n / 2)
      have hlast : (m &&& n) % 2 + (m ||| n) % 2 = m % 2 + n % 2 := by
        have hbit : ∀ x < 2, ∀ y < 2, (x &&& y) + (x ||| y) = x + y := by decide
        rw [Nat.and_mod_two_pow (n := 1), Nat.or_mod_two_pow (n := 1)]
        exact hbit _ (Nat.mod_lt _ Nat.two_pos) _ (Nat.mod_lt _ Nat.two_pos)
      rw [← Nat.and_div_two, ← Nat.or_div_two] at hrest
      omega

/-- Settles O38: the laws above, and division with remainder for mod. -/
theorem arithmeticLaws : Obligations.ArithmeticLaws := by
  intro b c
  refine ⟨addResult_comm b c, multResult_comm b c, addResult_toNat b c, multResult_toNat b c, notResult_toNat b,
    notResult_eq_xor b, notResult_notResult b, ?_, ?_, fun hc => ⟨?_, b.toNat / c.toNat, ?_⟩⟩
  · rw [notResult_toNat, Nat.add_sub_of_le (Nat.le_of_lt_succ b.isLt)]
  · rw [andResult_toNat, orResult_toNat, land_add_lor]
  · rw [modResult_toNat]
    exact Nat.mod_lt _ (Nat.pos_of_ne_zero hc)
  · rw [modResult_toNat, Nat.div_add_mod']

/-! ## add and mult (R90, R91) -/

theorem exec_add (a b c : Word) (s : State) : exec (.add a b c) s = s.binary 9 addResult a b c := rfl

theorem exec_mult (a b c : Word) (s : State) : exec (.mult a b c) s = s.binary 10 multResult a b c := rfl

/-- Settles O49: add stores the sum of the numbers of b and c, reduced modulo 32768. -/
theorem addStoresTheSum : Obligations.AddStoresTheSum := by
  refine ⟨operandFetchFaults_of_operandCount rfl, fun a b c s => ⟨rfl, fun hwf hmem => ?_⟩⟩
  rw [exec_add]
  exact State.binary_stores (g := fun x y => (x + y) % 32768) hmem 9 addResult_toNat
    fun _ => Instr.legalWord_of_wellFormed hwf

/-- Settles O50: mult stores the product of the numbers of b and c, reduced modulo 32768. -/
theorem multStoresTheProduct : Obligations.MultStoresTheProduct := by
  refine ⟨operandFetchFaults_of_operandCount rfl, fun a b c s => ⟨rfl, fun hwf hmem => ?_⟩⟩
  rw [exec_mult]
  exact State.binary_stores (g := fun x y => (x * y) % 32768) hmem 10 multResult_toNat
    fun _ => Instr.legalWord_of_wellFormed hwf

/-! ## mod (R92) -/

theorem exec_mod (a b c : Word) (s : State) : exec (.mod a b c) s = execMod a b c s := rfl

section
variable {s : State} {a b c : Word} (hlegal : ∀ w ∈ [a, b, c], legalWord w = true)
include hlegal

/-- `mod` with a divisor other than 0 is the three-operand storing instruction of the remainder. -/
theorem exec_mod_of_ne_zero (hc : s.operandValue c ≠ 0) : exec (.mod a b c) s = s.binary 11 modResult a b c := by
  obtain ⟨vb, hb, -⟩ := s.val_of_legal (hlegal b (by simp))
  obtain ⟨vc, hvc, hdivisor, -⟩ := s.val_of_legal (hlegal c (by simp))
  rw [exec_mod, execMod, State.binary]
  simp only [State.onVal_of_some hb, State.onVal_of_some hvc, hdivisor, if_neg hc]

theorem exec_mod_of_eq_zero (hc : s.operandValue c = 0) :
    exec (.mod a b c) s = .next (s.enterFault .divisionByZero (some 11) [a, b, c] none) := by
  obtain ⟨vb, hb, -⟩ := s.val_of_legal (hlegal b (by simp))
  obtain ⟨vc, hvc, hdivisor, -⟩ := s.val_of_legal (hlegal c (by simp))
  rw [exec_mod, execMod, State.onSlot_of_legal s (hlegal a (by simp)), State.onVal_of_some hb, State.onVal_of_some hvc,
    hdivisor, if_pos hc]

end

/-- Settles O51: a clause per kind of divisor. -/
theorem modStoresTheRemainder : Obligations.ModStoresTheRemainder := by
  refine ⟨operandFetchFaults_of_operandCount rfl, fun a b c s => ⟨rfl, fun hwf hmem hc => ?_, fun hwf hc => ?_⟩⟩
  · rw [exec_mod_of_ne_zero (fun _ => Instr.legalWord_of_wellFormed hwf) hc]
    exact State.binary_stores hmem 11 modResult_toNat fun _ => Instr.legalWord_of_wellFormed hwf
  · exact exec_mod_of_eq_zero (fun _ => Instr.legalWord_of_wellFormed hwf) hc

/-! ## and and or (R93, R94) -/

/-- What an operand word stands for is a value: a literal by R47, a register's content by R20. -/
theorem State.operandValue_lt (s : State) (w : Word) : s.operandValue w < 2 ^ 15 := by
  unfold State.operandValue
  split_ifs with h
  · exact Nat.lt_succ_of_le h
  · exact (s.regs.get (regIdx w)).isLt

theorem exec_and (a b c : Word) (s : State) : exec (.and a b c) s = s.binary 12 andResult a b c := rfl

theorem exec_or (a b c : Word) (s : State) : exec (.or a b c) s = s.binary 13 orResult a b c := rfl

/-- Settles O52: the stored value is the conjunction of the two numbers, which is at most the first. -/
theorem andStoresTheBitwiseAnd : Obligations.AndStoresTheBitwiseAnd := by
  refine ⟨operandFetchFaults_of_operandCount rfl, fun a b c s => ⟨rfl, fun hwf hmem => ?_⟩⟩
  obtain ⟨t, ht, hstores⟩ := State.binary_stores hmem 12 andResult_toNat fun _ => Instr.legalWord_of_wellFormed hwf
  refine ⟨t, _, (exec_and a b c s).trans ht, hstores, ?_, fun k _ => Nat.testBit_and ..⟩
  exact Nat.and_le_left.trans (Nat.le_of_lt_succ (s.operandValue_lt b))

/-- Settles O53: the stored value is the disjunction of the two numbers, which has no bit that neither of them has. -/
theorem orStoresTheBitwiseOr : Obligations.OrStoresTheBitwiseOr := by
  refine ⟨operandFetchFaults_of_operandCount rfl, fun a b c s => ⟨rfl, fun hwf hmem => ?_⟩⟩
  obtain ⟨t, ht, hstores⟩ := State.binary_stores hmem 13 orResult_toNat fun _ => Instr.legalWord_of_wellFormed hwf
  refine ⟨t, _, (exec_or a b c s).trans ht, hstores, ?_, fun k _ => Nat.testBit_or ..⟩
  exact Nat.le_of_lt_succ (Nat.or_lt_two_pow (s.operandValue_lt b) (s.operandValue_lt c))

/-! ## not (R95) -/

theorem exec_not (a b : Word) (s : State) : exec (.not a b) s = s.unary 14 notResult a b := rfl

/-- Settles O54: not stores the complement of the value of b. -/
theorem notStoresTheComplement : Obligations.NotStoresTheComplement := by
  refine ⟨operandFetchFaults_of_operandCount rfl, fun a b s => ⟨rfl, fun hwf hmem => ?_⟩⟩
  have ha := Instr.legalWord_of_wellFormed hwf (w := a) (by simp [Instr.operands])
  obtain ⟨vb, hb, hvb, -⟩ := s.val_of_legal (Instr.legalWord_of_wellFormed hwf (w := b) (by simp [Instr.operands]))
  rw [exec_not, ← hvb, ← notResult_toNat]
  exact State.unary_stores hmem 14 notResult ha hb

end Sys2Proof.Machine
end

section
/-! PROOFS. rmem and wmem (R97 to R99) with legal operand words, from the computed read (R66) and the store contract
(R65). -/

namespace Sys2Proof.Machine

/-! ## rmem (R97) -/

theorem exec_rmem (a b : Word) (s : State) : exec (.rmem a b) s = execRmem a b s := rfl

/-- `rmem` with legal operand words is the store of the cell at the value of b. -/
theorem exec_rmem_of_wellFormed {s : State} {a b : Word} (h : (Instr.rmem a b).wellFormed = true) :
    exec (.rmem a b) s =
      s.store 15 [a, b] a (s.memRead (BitVec.ofNat 16 (s.operandValue b))).toNat (s.advance 3) := by
  have ha := Instr.legalWord_of_wellFormed h (w := a) (by simp [Instr.operands])
  obtain ⟨vb, hb, -, haddr⟩ := s.val_of_legal (Instr.legalWord_of_wellFormed h (w := b) (by simp [Instr.operands]))
  rw [exec_rmem, execRmem, State.onSlot_of_legal s ha, State.onVal_of_some hb, ← haddr]
  simp only [State.loadAt_value]

/-- Settles O55: rmem stores the cell, and one above 32767 is what the store refuses. -/
theorem rmemStoresTheCell : Obligations.RmemStoresTheCell := by
  refine ⟨operandFetchFaults_of_operandCount rfl, fun a b s w => ⟨rfl, fun hlegal hwf hcell hw => ?_,
    fun hlegal hcell hw => ?_⟩⟩
  · have ha := Instr.legalWord_of_wellFormed hlegal (w := a) (by simp [Instr.operands])
    rw [exec_rmem_of_wellFormed hlegal, hcell]
    exact s.store_stores hwf 15 [a, b] ha hw 3
  · rw [exec_rmem_of_wellFormed hlegal, hcell]
    exact s.store_of_big _ 15 [a, b] a hw

/-! ## wmem (R98, R99) -/

/-- Settles O56: the value of a is a literal word, so as a slot it names a cell and never a register. -/
theorem wmemStoresAtTheValueOfA : Obligations.WmemStoresAtTheValueOfA := by
  refine ⟨operandFetchFaults_of_operandCount rfl, fun a b s => ⟨rfl, fun hlegal hwf => ?_⟩⟩
  obtain ⟨va, ha, -, haddr⟩ := s.val_of_legal (Instr.legalWord_of_wellFormed hlegal (w := a) (by simp [Instr.operands]))
  obtain ⟨vb, hb, hvb, -⟩ := s.val_of_legal (Instr.legalWord_of_wellFormed hlegal (w := b) (by simp [Instr.operands]))
  have hlit := zext16_isLit va
  have hstores := State.put_stores hwf (legalWord_of_isLit hlit) vb 3
  rw [State.put_of_isLit _ hlit] at hstores
  rw [← haddr, ← hvb]
  exact ⟨_, exec_wmem_of_val ha hb, hstores, rfl⟩

end Sys2Proof.Machine
end

section
/-! PROOFS. call and ret (R100 to R102): what each does to the stack and the pc, from the push (R67). -/

namespace Sys2Proof.Machine

/-! ## call (R100) -/

/-- `call` with a legal operand word is the push of the address behind it, then the jump to its value. -/
theorem exec_call_of_val {s : State} {a : Word} {va : Value} (ha : s.val a = some va) :
    exec (.call a) s = s.onPush 17 [a] (s.pc + 2) s fun t => .next (t.setPc (zext16 va)) :=
  State.onVal_of_some ha 17 [] _

theorem exec_call_of_room {s : State} {a : Word} (h : (Instr.call a).wellFormed = true) (hroom : s.stackFull = false) :
    exec (.call a) s =
      .next ((s.setStack ((s.pc + 2) :: s.stack)).setPc (BitVec.ofNat 16 (s.operandValue a))) := by
  obtain ⟨va, ha, -, htarget⟩ := s.val_of_legal (Instr.legalWord_of_wellFormed h (List.mem_singleton_self a))
  rw [exec_call_of_val ha, State.onPush_of_room s hroom, htarget]

theorem exec_call_of_full {s : State} {a : Word} (h : (Instr.call a).wellFormed = true) (hfull : s.stackFull = true) :
    exec (.call a) s = .next (s.enterFault .stackOverflow (some 17) [a] (some (s.pc + 2).toNat)) := by
  obtain ⟨va, ha, -⟩ := s.val_of_legal (Instr.legalWord_of_wellFormed h (List.mem_singleton_self a))
  rw [exec_call_of_val ha, State.onPush_of_full s hfull]

/-- Settles O57: the push of the return address, onto a stack with room and onto a full one. -/
theorem callPushesAndGoes : Obligations.CallPushesAndGoes := by
  refine ⟨operandFetchFaults_of_operandCount rfl, fun a s => ⟨rfl, fun hlegal hroom => ?_, fun hlegal n hn hfull => ?_⟩⟩
  · exact exec_call_of_room hlegal (State.stackFull_eq_false hroom)
  · exact exec_call_of_full hlegal (State.stackFull_eq_true hn hfull)

/-! ## ret (R101) -/

theorem exec_ret (s : State) : exec .ret s = execRet s := rfl

theorem exec_ret_of_nil {s : State} (h : s.stack = []) : exec .ret s = .next (s.setHalted.advance 1) := by
  simp only [exec_ret, execRet, h]

theorem exec_ret_of_cons {s : State} {e : Word} {rest : List Word} (h : s.stack = e :: rest) :
    exec .ret s = .next ((s.setStack rest).setPc e) := by
  simp only [exec_ret, execRet, h]

/-- Settles O58: a clause per form of the stack; a pc of 32768 is above the top (R62). -/
theorem retPopsThePcOrHalts : Obligations.RetPopsThePcOrHalts := by
  refine ⟨rfl, fun s => ⟨exec_ret_of_nil, fun e rest hst => ⟨exec_ret_of_cons hst, fun hs he => ?_⟩⟩⟩
  subst he
  exact fetchAboveTopFaults { s with stack := rest, pc := 32768 } hs (by decide : 32767 < (32768 : Word).toNat)

/-- Settles O37: the entry `ret` pops is the one `call` pushed. -/
theorem callThenRetReturnsBehindTheCall : Obligations.CallThenRetReturnsBehindTheCall :=
  fun _ _ hlegal hroom =>
    ⟨_, exec_call_of_room hlegal (State.stackFull_eq_false hroom), fun _ hu => exec_ret_of_cons hu⟩

end Sys2Proof.Machine
end

section
/-! PROOFS. Which steps have no next state (R106, R120): each operation a meaning is built from passes a next state on,
so every instruction has one, but for `in` on a silent console. -/

namespace Sys2Proof.Machine

/-! ## The console's silence (R104, R106) -/

/-- A refill fails exactly when the queue is empty and the console never answers. -/
theorem State.refill_eq_none_iff (s : State) : s.refill = none ↔ s.inq = [] ∧ s.nextAnswer = none := by
  refine ⟨fun h => ?_, fun ⟨hq, hanswer⟩ => State.refill_of_nextAnswer_none hq hanswer⟩
  cases hq : s.inq with
  | cons ch rest => cases h.symm.trans (State.refill_of_cons hq)
  | nil =>
    cases hanswer : s.nextAnswer with
    | none => exact ⟨rfl, rfl⟩
    | some line => cases h.symm.trans (State.refill_of_nextAnswer hq hanswer)

theorem exec_inp_of_silent {s : State} {a : Word} (ha : legalWord a = true) (hr : s.refill = none) :
    exec (.inp a) s = .fault .consoleSilent := by
  rw [exec_inp, execIn, State.onSlot_of_legal s ha]
  simp only [hr]

/-! ## Results with a next state -/

/-- The result is a next state. -/
def HasNext (r : Result) : Prop := ∃ t, r = .next t

theorem hasNext_next (t : State) : HasNext (.next t) := ⟨t, rfl⟩

section
variable (s : State)

/-! ### The operand forms, the store and the push -/

theorem hasNext_onVal {op : Word} {seen : List Word} {w : Word} {k : Value → Result} (hk : ∀ v, HasNext (k v)) :
    HasNext (s.onVal op seen w k) := by
  unfold State.onVal
  split
  · exact hk _
  · exact hasNext_next _

/-- A slot operand that is illegal is a fault of the CORE, which is a next state; a legal one goes on. -/
theorem hasNext_onSlot {op : Word} {seen : List Word} {w : Word} {k : Word → Result}
    (hk : legalWord w = true → HasNext (k w)) : HasNext (s.onSlot op seen w k) := by
  unfold State.onSlot
  split
  · exact hasNext_next _
  · exact hk ((legalWord_iff w).2 ‹_›)

theorem hasNext_store {s' : State} {op : Word} {ops : List Word} {slot : Word} {v : Nat} :
    HasNext (s.store op ops slot v s') := by
  unfold State.store
  split_ifs <;> exact hasNext_next _

theorem hasNext_onPush {s' : State} {op : Word} {ops : List Word} {v : Word} {k : State → Result}
    (hk : ∀ t, HasNext (k t)) : HasNext (s.onPush op ops v s' k) := by
  unfold State.onPush
  split
  · exact hasNext_next _
  · exact hk _

/-! ### The instruction shapes -/

theorem hasNext_binary {op : Word} {f : Value → Value → Value} {a b c : Word} : HasNext (s.binary op f a b c) :=
  hasNext_onSlot s fun _ => hasNext_onVal s fun _ => hasNext_onVal s fun _ => hasNext_store s

theorem hasNext_unary {op : Word} {f : Value → Value} {a b : Word} : HasNext (s.unary op f a b) :=
  hasNext_onSlot s fun _ => hasNext_onVal s fun _ => hasNext_store s

theorem hasNext_jumpIf {op : Word} {cond : Value → Bool} {a b : Word} : HasNext (s.jumpIf op cond a b) :=
  hasNext_onVal s fun _ => hasNext_onVal s fun _ => hasNext_next _

/-! ### The instructions with a shape of their own -/

theorem hasNext_execPop {a : Word} : HasNext (execPop a s) := by
  refine hasNext_onSlot s fun _ => ?_
  cases s.stack with
  | nil => exact hasNext_next _
  | cons e rest => exact hasNext_store s

theorem hasNext_execMod {a b c : Word} : HasNext (execMod a b c s) := by
  refine hasNext_onSlot s fun _ => hasNext_onVal s fun _ => hasNext_onVal s fun _ => ?_
  split
  · exact hasNext_next _
  · exact hasNext_store s

theorem hasNext_execRmem {a b : Word} : HasNext (execRmem a b s) := by
  refine hasNext_onSlot s fun _ => hasNext_onVal s fun _ => ?_
  rw [State.loadAt_value]
  exact hasNext_store s

theorem hasNext_execRet : HasNext (execRet s) := by
  unfold execRet
  split <;> exact hasNext_next _

theorem hasNext_execOut {a : Word} : HasNext (execOut a s) := by
  refine hasNext_onVal s fun _ => ?_
  split <;> exact hasNext_next _

/-- A queue that can be refilled gives `in` a character to store. -/
theorem hasNext_execIn {a : Word} (hr : legalWord a = true → s.refill ≠ none) : HasNext (execIn a s) := by
  refine hasNext_onSlot s fun ha => ?_
  obtain ⟨s1, h1⟩ := Option.ne_none_iff_exists'.1 (hr ha)
  simp only [h1]
  exact hasNext_store _

/-! ### Every instruction -/

/-- An instruction has a next state unless it is an `in` that comes to ask a silent console. -/
theorem hasNext_exec (i : Instr) (hin : ∀ a, i = .inp a → legalWord a = true → s.refill ≠ none) :
    HasNext (exec i s) := by
  cases i with
  | halt => exact hasNext_next _
  | set => exact hasNext_unary s
  | push => exact hasNext_onVal s fun _ => hasNext_onPush s hasNext_next
  | pop => exact hasNext_execPop s
  | eq => exact hasNext_binary s
  | gt => exact hasNext_binary s
  | jmp => exact hasNext_onVal s fun _ => hasNext_next _
  | jt => exact hasNext_jumpIf s
  | jf => exact hasNext_jumpIf s
  | add => exact hasNext_binary s
  | mult => exact hasNext_binary s
  | mod => exact hasNext_execMod s
  | and => exact hasNext_binary s
  | or => exact hasNext_binary s
  | not => exact hasNext_unary s
  | rmem => exact hasNext_execRmem s
  | wmem => exact hasNext_onVal s fun _ => hasNext_onVal s fun _ => hasNext_store s
  | call => exact hasNext_onVal s fun _ => hasNext_onPush s fun _ => hasNext_next _
  | ret => exact hasNext_execRet s
  | out => exact hasNext_execOut s
  | inp a => exact hasNext_execIn s (hin a rfl)
  | noop => exact hasNext_next _

end

/-- Settles O23: an `in` that comes to ask a silent console is stuck; whatever is no such `in` has a next state, and so
is not stuck. -/
theorem onlyASilentConsoleStops : Obligations.OnlyASilentConsoleStops := by
  intro i s
  by_cases h : ∃ a, i = .inp a ∧ legalWord a = true ∧ s.inq = [] ∧ s.nextAnswer = none
  · obtain ⟨a, rfl, ha, hsilent⟩ := h
    have hstuck := exec_inp_of_silent ha (s.refill_eq_none_iff.2 hsilent)
    exact ⟨iff_of_true hstuck ⟨a, rfl, ha, hsilent⟩, .inr hstuck⟩
  · obtain ⟨t, ht⟩ : HasNext (exec i s) :=
      hasNext_exec s i fun a hi ha hr => h ⟨a, hi, ha, s.refill_eq_none_iff.1 hr⟩
    exact ⟨iff_of_false (by simp [ht]) h, .inl ⟨t, ht⟩⟩

end Sys2Proof.Machine
end

section
/-! PROOFS. The opcodes above 21 (R53, R69, R121). -/

namespace Sys2Proof

/-- A word that resolves to a number outside the opcode map does not decode, whatever follows it (R53, R69). -/
theorem decode_of_invalidOpcode {x : Reg → Value} {w : Word} (h : 21 < (resolveOpcode x w).toNat) (ws : List Word) :
    decode x (w :: ws) = .error (.invalidOpcode (resolveOpcode x w)) := by
  simp only [decode, operandCount_none h]

end Sys2Proof

namespace Sys2Proof.Machine

theorem step_of_invalidOpcode {s : State} (hs : s.stopped = false) (hpc : s.pc.toNat ≤ 32767) {op : Word}
    (hop : resolveOpcode s.regs.get (s.memRead s.pc) = op) (h : 21 < op.toNat) :
    step s = .next (s.enterFault .invalidOpcode (some op) [] (some op.toNat)) := by
  subst hop
  exact step_of_decode_error hs (by rw [State.fetchWords_four hpc]; exact decode_of_invalidOpcode h _)

/-- Settles O19: a word that names no register resolves to itself, one that names a register to what that holds. -/
theorem invalidOpcodeFaults : Obligations.InvalidOpcodeFaults := by
  refine fun s hs hpc => ⟨fun w hw hreg hbig => ?_, fun r hr hbig => ?_⟩
  · exact step_of_invalidOpcode hs hpc (by rw [hw, resolveOpcode_of_not_isReg _ hreg]) hbig
  · have hop : resolveOpcode s.regs.get (s.memRead s.pc) = zext16 (s.regs.get r) := by rw [hr, resolveOpcode_regWord]
    rw [← zext16_toNat] at hbig ⊢
    exact step_of_invalidOpcode hs hpc hop hbig

end Sys2Proof.Machine
end

section
/-! PROOFS. Reset and load (R140, R141): the start values, the image in the cells from address 0 on, and the first step
of a machine with nothing loaded. -/

namespace Sys2Proof.Machine

/-! ## Reset (R140) -/

theorem RegFile.get_zero (r : Reg) : RegFile.zero.get r = 0 := by cases r <;> rfl

/-- Settles O1: the components are those of the fresh machine, whose registers and cells are 0. -/
theorem resetLeavesStartValues : Obligations.ResetLeavesStartValues :=
  ⟨rfl, fun _ => ⟨RegFile.get_zero, rfl, fun _ _ => rfl, rfl, rfl, rfl, rfl, rfl⟩⟩

/-! ## Load (R141) -/

/-- A cell of the memory, by its number. -/
theorem State.memRead_ofNat (s : State) {k : Nat} (hk : k < 32768) : s.memRead (BitVec.ofNat 16 k) = s.mem.read k := by
  have hword : (BitVec.ofNat 16 k).toNat = k := (BitVec.toNat_ofNat ..).trans (Nat.mod_eq_of_lt (by omega))
  have hlit : isLit (BitVec.ofNat 16 k) := by omega
  rw [State.memRead, and_addrMask_of_isLit hlit, hword]

section
variable {s : State} {words : List Word}

theorem State.load_of_fits (hs : s.hostReset = s) (hlen : words.length ≤ Config.memWords) :
    s.load words = .next { s with mem := s.mem.place 0 words } := by
  rw [State.load, if_neg (not_not_intro hs), if_neg (Nat.not_lt.2 hlen)]

theorem State.load_of_tooLong (hs : s.hostReset = s) (hlen : Config.memWords < words.length) :
    s.load words = .refused .imageTooLong := by
  rw [State.load, if_neg (not_not_intro hs), if_pos hlen]

theorem State.load_of_not_reset (hs : s.hostReset ≠ s) : s.load words = .refused .loadNotReset := if_pos hs

end

/-- The first step of a machine that is reset and has nothing loaded runs the 0 in cell 0, which is halt. -/
theorem step_hostReset (s : State) : step s.hostReset = .next { s.hostReset with halted := true, pc := 1 } := by
  have hrun : step s.hostReset = exec .halt s.hostReset :=
    stepRunsInstrInCells s.hostReset .halt rfl rfl (by decide : 0 + 1 + 0 ≤ 32768) rfl rfl
  obtain ⟨-, hhalt⟩ := haltSetsHalted
  exact hrun.trans (hhalt s.hostReset).1

/-- Settles O2: a clause per outcome of load; the image lies in the cells from 0 on, over a memory of zeros. -/
theorem loadPlacesImageOrIsRefused : Obligations.LoadPlacesImageOrIsRefused := by
  intro s words
  refine ⟨fun hs hlen => ?_, fun hs => ⟨State.load_of_fits hs (Nat.zero_le _), ?_⟩, State.load_of_tooLong,
    State.load_of_not_reset⟩
  · have hmem : s.mem = [] := by rw [← hs]; rfl
    refine ⟨_, State.load_of_fits hs hlen, fun k hk => ?_, fun k hk htop => ?_, rfl⟩
    · have hword := Memory.read_place (m := []) rfl (a := 0) (by rwa [Nat.zero_add]) hk
      rw [Nat.zero_add] at hword
      rw [State.memRead_ofNat _ (hk.trans_le hlen), hmem]
      exact hword
    · rw [State.memRead_ofNat _ htop, hmem]
      exact Memory.read_place_outside [] (.inr (by omega))
  · rw [← hs]
    exact step_hostReset s

end Sys2Proof.Machine
end
